-- ==== Sys2Proof/Word.lean ====
section
/-! DEFINITION. The bit-vector types of the block (rules R7, R10, R70): bytes, command words, port addresses, pin codes. -/

namespace Sys2Proof

/-- One byte-wide port register, and the byte TRANSFER shifts (PORT_WIDTH = 8, R7). -/
abbrev Byte := BitVec 8

/-- A command word and a host register (COMMAND_WIDTH = 32, R7, R70). -/
abbrev Word := BitVec 32

/-- A port address (PORT_ADDR_BITS = 12, R7, R50). -/
abbrev PortAddr := BitVec 12

/-- A pin code (PIN_FIELD_BITS = 4, R7, R76): 0..7 a pin, 8..14 out of range, 15 NOPIN. -/
abbrev PinCode := BitVec 4

/-- A tick count (TICKS, R7, R24): the DELAY register and SETDELAY's operand, 16 bits. -/
abbrev Ticks := BitVec 16

end Sys2Proof
end

