-- ==== Sys2Proof/Config.lean ====
section
/-! DEFINITION. What an implementation of the block fixes (rule R8): the MISO sample point. The other two parameters
of R8, PortEnv and TickSource, are agents: State holds what they do as data (answers and agenda). -/

namespace Sys2Proof

/-- Where in each bit cycle TRANSFER samples MISO (R8, R153). -/
inductive SamplePoint where
  /-- After the second DELAY of the cycle: the default. -/
  | afterPulse
  /-- After the data-out write and before the rising clock edge. -/
  | beforePulse
deriving DecidableEq, Repr

/-- The implementation parameters of one block, fixed for its lifetime: "a parameter, not state; reset does not change
it" (R32). Every State carries one, so a claim about every state is a claim about both values (log entry 1). -/
structure Config where
  samplePoint : SamplePoint
deriving DecidableEq, Repr

/-- The default of R8. -/
def Config.default : Config := { samplePoint := .afterPulse }

/-- Port address 0, the null port (R14, R51). -/
def nullPort : PortAddr := 0#12

/-- Pin code 15, the no-pin sentinel NOPIN (R14, R76). -/
def noPin : PinCode := 15#4

end Sys2Proof
end

