-- ==== Sys2Proof/Syntax.lean ====
section
/-! DEFINITION. The command set SSPI-CMD (rules R71..R79, R81, R86): one constructor per row of the opcode table. -/

namespace Sys2Proof

/-- The four pin roles (R14, R75). -/
inductive Role where
  | mosi
  | miso
  | clk
  | sel
deriving DecidableEq, Repr

/-- The bit order of one TRANSFER (ORD, R78). -/
inductive BitOrder where
  | msbFirst
  | lsbFirst
deriving DecidableEq, Repr

/-- A command. Operands are the encoded fields, of the widths the formats give them. -/
inductive Instr where
  /-- `bind <role>, <port>, <pin>`, format B (R73, R101). -/
  | bind (role : Role) (port : PortAddr) (pin : PinCode)
  /-- `init <port>, <mosipin>, <misopin>, <clkpin>, <selpin>`, format I (R74, R104). -/
  | init (port : PortAddr) (mosiPin misoPin clkPin selPin : PinCode)
  /-- `isready`, format N (R72, R108). -/
  | isready
  /-- `setdelay <ticks>`, format D; the operand is read as a signed number (R77, R111). -/
  | setdelay (ticks : Ticks)
  /-- `transfer <val>, <ord>`, format T (R78, R152). -/
  | transfer (val : Byte) (ord : BitOrder)
  /-- `trigger`, format N (R72, R181). -/
  | trigger
  /-- `writecs <lvl>`, format S (R79, R184). -/
  | writecs (lvl : Bool)
  /-- `clear`: the name of the word of `transfer 0x00, lsb` (R86, R160). -/
  | clear
deriving DecidableEq, Repr

end Sys2Proof
end

