-- ==== Sys2Proof/WellFormed.lean ====
section
/-! DEFINITION. When a command is the one spelling of its word. Every operand type has exactly its field's width, so
the only check left is the pseudo-instruction: the word 0x00000015 is spelt `clear` (rules R86, R87; log entry 2). -/

namespace Sys2Proof

/-- A command is well formed when it is the spelling R87 prints: `transfer 0x00, lsb` is spelt `clear`. -/
def Instr.wellFormed : Instr → Bool
  | .bind _ _ _ => true
  | .init _ _ _ _ _ => true
  | .isready => true
  | .setdelay _ => true
  | .transfer val ord => !(val == 0#8 && ord == BitOrder.lsbFirst)
  | .trigger => true
  | .writecs _ => true
  | .clear => true

/-- The well-formed spelling of a command: what its word decodes to. -/
def Instr.canonical (i : Instr) : Instr := if i.wellFormed then i else .clear

end Sys2Proof
end

