-- ==== Sys2Proof/Decode.lean ====
section
/-! DEFINITION. Decoding and encoding of command words (rules R59, R70..R84): total on any bytes, rejecting by name. -/

namespace Sys2Proof

/-- Why bytes are no command. -/
inductive DecodeError where
  /-- Fewer than the four bytes of a command word (R70, R84). -/
  | truncated
  /-- OPC 0x0 or 0x8..0xF (R81, R201). -/
  | reservedOpcode (opc : BitVec 4)
  /-- OPC 0x1..0x7 with a bit set that its format reserves (R81, R82). -/
  | reservedBit (opc : BitVec 4)
deriving DecidableEq, Repr

/-- The seven opcodes of the opcode map (R81). -/
inductive Opcode where
  | bind
  | init
  | isready
  | setdelay
  | transfer
  | trigger
  | writecs
deriving DecidableEq, Repr

/-- The OPC field's value (R81). -/
def Opcode.bits : Opcode → BitVec 4
  | .bind => 0x1#4
  | .init => 0x2#4
  | .isready => 0x3#4
  | .setdelay => 0x4#4
  | .transfer => 0x5#4
  | .trigger => 0x6#4
  | .writecs => 0x7#4

/-- The opcode of an OPC field, none for the reserved ones (R81). -/
def Opcode.ofBits (v : BitVec 4) : Option Opcode :=
  if v = 0x1#4 then some .bind
  else if v = 0x2#4 then some .init
  else if v = 0x3#4 then some .isready
  else if v = 0x4#4 then some .setdelay
  else if v = 0x5#4 then some .transfer
  else if v = 0x6#4 then some .trigger
  else if v = 0x7#4 then some .writecs
  else none

/-- The match column of R81. -/
def Opcode.pattern : Opcode → Word
  | .bind => 0x00000001#32
  | .init => 0x00000002#32
  | .isready => 0x00000003#32
  | .setdelay => 0x00000004#32
  | .transfer => 0x00000005#32
  | .trigger => 0x00000006#32
  | .writecs => 0x00000007#32

/-- The mask column of R81: OPC and every reserved bit of the format. -/
def Opcode.mask : Opcode → Word
  | .bind => 0x000FFC0F#32
  | .init => 0x0000000F#32
  | .isready => 0xFFFFFFFF#32
  | .setdelay => 0x0000FFFF#32
  | .transfer => 0xFFFF00EF#32
  | .trigger => 0xFFFFFFFF#32
  | .writecs => 0xFFFFFFEF#32

/-- The ROLE field's code (R75). -/
def Role.code : Role → BitVec 2
  | .mosi => 0#2
  | .miso => 1#2
  | .clk => 2#2
  | .sel => 3#2

/-- The role of a ROLE field: all four codes are legal (R75). -/
def Role.ofCode (v : BitVec 2) : Role :=
  if v = 0#2 then .mosi else if v = 1#2 then .miso else if v = 2#2 then .clk else .sel

/-- The ORD bit (R78). -/
def BitOrder.bit : BitOrder → BitVec 1
  | .msbFirst => 0#1
  | .lsbFirst => 1#1

/-- The order an ORD bit selects (R78). -/
def BitOrder.ofBit (v : BitVec 1) : BitOrder := if v = 0#1 then .msbFirst else .lsbFirst

/-- OPC, bits 3:0 of every format (R70). -/
def fieldOpc (w : Word) : BitVec 4 := w.extractLsb' 0 4

/-- The command of a word that matches its opcode's row: the operands of R80, each taken from its field. The word
0x00000015 is spelt `clear` (R86, R87). -/
def Opcode.command (k : Opcode) (w : Word) : Instr :=
  match k with
  | .bind => .bind (Role.ofCode (w.extractLsb' 8 2)) (w.extractLsb' 20 12) (w.extractLsb' 4 4)
  | .init => .init (w.extractLsb' 20 12) (w.extractLsb' 4 4) (w.extractLsb' 8 4) (w.extractLsb' 12 4)
      (w.extractLsb' 16 4)
  | .isready => .isready
  | .setdelay => .setdelay (w.extractLsb' 16 16)
  | .transfer => (Instr.transfer (w.extractLsb' 8 8) (BitOrder.ofBit (w.extractLsb' 4 1))).canonical
  | .trigger => .trigger
  | .writecs => .writecs (w.extractLsb' 4 1 = 1#1)

/-- Decoding of one command word, total on all 2^32 words (R82). -/
def decodeWord (w : Word) : Except DecodeError Instr :=
  match Opcode.ofBits (fieldOpc w) with
  | none => .error (.reservedOpcode (fieldOpc w))
  | some k => if w &&& k.mask = k.pattern then .ok (k.command w) else .error (.reservedBit (fieldOpc w))

/-- The word of four bytes, byte 0 being bits 7:0 (R59, D25). -/
def wordOfBytes (b0 b1 b2 b3 : Byte) : Word := (b3 ++ b2 ++ b1 ++ b0 : BitVec 32)

/-- The four bytes of a word on a byte-wide command link, byte 0 first (R59, D25). -/
def bytesOfWord (w : Word) : List Byte :=
  [w.extractLsb' 0 8, w.extractLsb' 8 8, w.extractLsb' 16 8, w.extractLsb' 24 8]

/-- Decoding of a byte stream: the first command and the bytes after it (R59, R84). -/
def decode : List Byte → Except DecodeError (Instr × List Byte)
  | b0 :: b1 :: b2 :: b3 :: rest => (decodeWord (wordOfBytes b0 b1 b2 b3)).map fun i => (i, rest)
  | _ => .error .truncated

/-- The word of a command, from the layouts of R71..R79 and R86. -/
def encode : Instr → Word
  | .bind role port pin => (port ++ 0#10 ++ role.code ++ pin ++ 0x1#4 : BitVec 32)
  | .init port mosiPin misoPin clkPin selPin =>
      (port ++ selPin ++ clkPin ++ misoPin ++ mosiPin ++ 0x2#4 : BitVec 32)
  | .isready => 0x00000003#32
  | .setdelay ticks => (ticks ++ 0#12 ++ 0x4#4 : BitVec 32)
  | .transfer val ord => (0#16 ++ val ++ 0#3 ++ ord.bit ++ 0x5#4 : BitVec 32)
  | .trigger => 0x00000006#32
  | .writecs lvl => (0#27 ++ BitVec.ofBool lvl ++ 0x7#4 : BitVec 32)
  | .clear => 0x00000015#32

/-- The word of an opcode-table row of `nbits` bits numbered as the table numbers them; bits above are zero (R70). -/
def tableWord (nbits w : Nat) : Word := BitVec.ofNat 32 (w % 2 ^ nbits)

/-- What the decoder reads from an opcode-table row's word, laid out as bytes (R59). -/
def decodeTableWord (nbits w : Nat) : Option Instr :=
  match decode (bytesOfWord (tableWord nbits w)) with
  | .ok (i, _) => some i
  | .error _ => none

end Sys2Proof
end

