-- ==== Sys2Proof/Machine/State.lean ====
section
/-! DEFINITION. The state (rules R20..R33, R50, R206, R246): the block's record as R33 gives it, and beside it what the
other agents of R9 hold or do: the port registers, the command channel, the schedule of the other agents' turns, the
port bus's coming answers, and the list of what the block did on the port bus. -/

namespace Sys2Proof.Machine

/-- Why a step stops. No state that meets the invariant raises either (Safety.lean), and no command's meaning does. -/
inductive Fault where
  /-- A micro-operation names the null port. Raised by the port primitives, in unreachable states only: "The block
  never issues a transaction to port address 0" (R51, R138). Safe. -/
  | nullPort
  /-- A micro-operation names a pin index above 7, the source's undefined shift overflow. Raised by the port
  primitives, in unreachable states only (R138). Safe. -/
  | pinIndexAbove7
deriving DecidableEq, Repr

/-- Why a command has no meaning. -/
inductive Refusal where
  /-- A command of the opcode table that has no meaning yet, by its mnemonic. Raised by exec alone, never now. Safe. -/
  | notModelled (mnemonic : String)
deriving DecidableEq, Repr

/-- The binding of one role (R26, R27). -/
structure Binding where
  port : PortAddr
  pin  : PinCode
deriving DecidableEq, Repr

/-- The binding table BIND[r], the block's one indexed register file (R27). -/
structure Bindings where
  mosi : Binding
  miso : Binding
  clk  : Binding
  sel  : Binding
deriving DecidableEq, Repr

/-- A micro-operation of the sequencer (R33, R130). -/
inductive MicroOp where
  /-- SETBIT(a, i) (R131). -/
  | setBit (a : PortAddr) (i : PinCode)
  /-- CLEARBIT(a, i) (R133). -/
  | clearBit (a : PortAddr) (i : PinCode)
  /-- READBIT(a, i), whose bit is accumulated in the order `ord` (R135, R154). -/
  | readBit (a : PortAddr) (i : PinCode) (ord : BitOrder)
  /-- DELAY() with the tick count fixed at acceptance (R139). -/
  | delay (n : Ticks)
deriving DecidableEq, Repr

/-- A micro-operation of OPS and the bit cycle it belongs to (R30; 0 outside TRANSFER). -/
structure MicroEntry where
  cycle : Fin 8
  op    : MicroOp
deriving DecidableEq, Repr

/-- The state of one block instance, the record of R33. -/
structure SeqState where
  /-- STATUS.CODE (R22). -/
  code     : BitVec 4
  /-- STATUS.BUSY (R22). -/
  busy     : Bool
  /-- RESULT.DATA (R23). -/
  result   : Byte
  /-- DELAY.TICKS (R24). -/
  delay    : Ticks
  /-- INITSTAT[2:0] (R25). -/
  initstat : BitVec 3
  /-- BIND[r] (R26, R27). -/
  bind     : Bindings
  /-- Hidden CMD: the accepted command word (R30). -/
  cmd      : Word
  /-- Hidden OPS: the micro-operations still to start; a hold in progress has left it (R30, R31; log entry 20). -/
  ops      : List MicroEntry
  /-- Hidden ACC: TRANSFER's input accumulator (R30, R154). -/
  acc      : Byte
  /-- Hidden BITI: the bit cycle the head of OPS belongs to (R30; log entry 20). -/
  biti     : Fin 8
  /-- Hidden HOLDLEFT: ticks still to wait in the hold in progress, 0 when there is none (R30, R211). -/
  holdLeft : Nat
deriving DecidableEq, Repr

/-- The port registers that differ from what an unlisted one reads as, by address (R50): one canonical list. -/
abbrev Memory := List Host.Cell

/-- A turn another agent takes between two steps of the block (R9, R64), or leaves to the block. -/
inductive Turn where
  /-- The block's own step. -/
  | sequencer
  /-- The host offers one more command word (R206). -/
  | hostOffer (w : Word)
  /-- The host or platform asserts reset (R230, R232). -/
  | hostReset
  /-- Another agent's transaction on port register a: it becomes (old and not clr) or set (R9, R212, R240). -/
  | envWrite (a : PortAddr) (clr set : Byte)
  /-- Nothing happens: the tick source has not ticked yet, or time passes (R140). -/
  | stall
deriving DecidableEq, Repr

/-- How the port environment answers one port-bus transaction of the block (R57, R247). -/
inductive BusAnswer where
  /-- With the register's value: plain registers, the default of R8. -/
  | register
  /-- With a value of the environment's own: a draw (R57, R242). -/
  | supply (v : Byte)
  /-- Never: the block is stuck in the middle of the command (R247). -/
  | silent
deriving DecidableEq, Repr

/-- What the block did on the port bus and the tick source, as R246 observes it. -/
inductive BusEvent where
  /-- One PortRMW, and the value it left in the register (R55). -/
  | rmw (a : PortAddr) (clr set left : Byte)
  /-- One PortRead, and the value returned (R54). -/
  | read (a : PortAddr) (value : Byte)
  /-- One hold, and its tick count (R139). -/
  | hold (n : Ticks)
deriving DecidableEq, Repr

/-- The whole machine: one block and the agents around it (R9). -/
structure State where
  /-- The implementation's parameters, which no step writes (R8). -/
  cfg     : Config
  /-- The block (R33). -/
  blk     : SeqState
  /-- The port registers, state of the port environment (R50). -/
  ports   : Memory
  /-- Command words the host offers, the next one first (R206). -/
  offered : List Word
  /-- Turns to come, the next one first; when empty every turn is the block's (R9). -/
  agenda  : List Turn
  /-- Answers to the block's coming port-bus transactions, the next one first; when empty, plain registers (R57). -/
  answers : List BusAnswer
  /-- The block's port-bus transactions and holds so far, oldest first (R246). -/
  trace   : List BusEvent
deriving DecidableEq, Repr

/-- The binding of a role nothing has bound: null port, NOPIN (R26, R32). -/
def Binding.reset : Binding := { port := nullPort, pin := noPin }

/-- The block right after reset (R32, R230). CMD, ACC and BITI are unspecified there; they are 0 (log entry 3). -/
def SeqState.reset : SeqState where
  code     := 0#4
  busy     := false
  result   := 0x00#8
  delay    := 1#16
  initstat := 0b000#3
  bind     := { mosi := Binding.reset, miso := Binding.reset, clk := Binding.reset, sel := Binding.reset }
  cmd      := 0#32
  ops      := []
  acc      := 0x00#8
  biti     := 0
  holdLeft := 0

/-- The machine right after reset: the block reset, plain registers with no other writer (the default of R8), nothing
offered, nothing done. -/
def State.reset : State where
  cfg     := Config.default
  blk     := SeqState.reset
  ports   := []
  offered := []
  agenda  := []
  answers := []
  trace   := []

/-- The machine with its block replaced. -/
def State.withBlk (s : State) (b : SeqState) : State := { s with blk := b }

end Sys2Proof.Machine
end

