-- ==== Sys2Proof/Machine/Operands.lean ====
section
/-! DEFINITION. Every operand form (rules R27, R76, R77, R80, R116, R151, R154): pin codes and their masks, the
binding table by role, the signed tick count, bit selection and bit accumulation. -/

namespace Sys2Proof.Machine

/-- The pin code is a pin index, 0..7 (R76). -/
def pinIsIndex (p : PinCode) : Bool := p.toNat ≤ 7

/-- The pin code a BIND or INIT stores for a role: an index, or NOPIN for a data role (R76, R101, R104). -/
def pinLegal (r : Role) (p : PinCode) : Bool :=
  match r with
  | .mosi => pinIsIndex p || p == noPin
  | .miso => pinIsIndex p || p == noPin
  | .clk => pinIsIndex p
  | .sel => pinIsIndex p

/-- The mask of a pin index at 8 bits, `(0x01 << i)[7:0]` (R80, R131). -/
def pinMask (i : PinCode) : Byte := 0x01#8 <<< i.toNat

/-- Bit i of a port register's value, `(v >> i)[0]` (R135). -/
def pinLevel (v : Byte) (i : PinCode) : Bool := (v >>> i.toNat).getLsbD 0

/-- BIND[r] (R27). -/
def Bindings.get (b : Bindings) : Role → Binding
  | .mosi => b.mosi
  | .miso => b.miso
  | .clk => b.clk
  | .sel => b.sel

/-- BIND[r] <- v (R27). -/
def Bindings.set (b : Bindings) (r : Role) (v : Binding) : Bindings :=
  match r with
  | .mosi => { b with mosi := v }
  | .miso => { b with miso := v }
  | .clk => { b with clk := v }
  | .sel => { b with sel := v }

/-- SETDELAY's operand is a positive number: `sext_16(TICKS) > 0` (R77, R111). -/
def ticksPositive (t : Ticks) : Bool := 0 < t.toInt

/-- The output bit of cycle i (R151). -/
def outBit (val : Byte) (ord : BitOrder) (i : Fin 8) : Bool :=
  match ord with
  | .msbFirst => val.getLsbD (7 - i.val)
  | .lsbFirst => val.getLsbD i.val

/-- ACCUMULATE(acc, s, i, ORD) (R154). -/
def accumulate (acc : Byte) (s : Bool) (i : Fin 8) (ord : BitOrder) : Byte :=
  match ord with
  | .msbFirst => (acc <<< 1) ||| (BitVec.ofBool s).setWidth 8
  | .lsbFirst => acc ||| ((BitVec.ofBool s).setWidth 8 <<< i.val)

/-- `mosiPresent` (R116). -/
def SeqState.mosiPresent (b : SeqState) : Bool := b.bind.mosi.pin != noPin

/-- `misoPresent` (R116). -/
def SeqState.misoPresent (b : SeqState) : Bool := b.bind.miso.pin != noPin

/-- `misoInvalid` (R116): a MISO pin at the null port. -/
def SeqState.misoInvalid (b : SeqState) : Bool := b.misoPresent && b.bind.miso.port == nullPort

end Sys2Proof.Machine
end

