-- ==== Sys2Proof/Machine/Flags.lean ====
section
/-! DEFINITION. Every status computation (rules R22, R25, R29, R101, R104, R108, R116, R200): the status codes and the
initialization bits. The block has no arithmetic flags (R29). -/

namespace Sys2Proof.Machine

/-- The outcomes a command reports (R200). -/
inductive Status where
  | ok
  | illegalCommand
  | pinIndexOutOfRange
  | invalidBinding
deriving DecidableEq, Repr

/-- The number of a status in STATUS.CODE (R22, R200). -/
def Status.code : Status → BitVec 4
  | .ok => 0#4
  | .illegalCommand => 1#4
  | .pinIndexOutOfRange => 2#4
  | .invalidBinding => 3#4

/-- The INITSTAT bit of a role, none for MISO (R25, R75). -/
def initBit : Role → Option Nat
  | .mosi => some 0
  | .miso => none
  | .clk => some 1
  | .sel => some 2

/-- INITSTAT with bit n set to b. -/
def withInitBit (v : BitVec 3) (n : Nat) (b : Bool) : BitVec 3 :=
  if b then v ||| (1#3 <<< n) else v &&& ~~~(1#3 <<< n)

/-- INITSTAT after a successful BIND of role r to a port: the role's bit becomes (PORT != 0) (R101, R102). -/
def initstatAfterBind (v : BitVec 3) (r : Role) (port : PortAddr) : BitVec 3 :=
  match initBit r with
  | none => v
  | some n => withInitBit v n (port != nullPort)

/-- INITSTAT after a successful INIT (R104). -/
def initstatAfterInit (port : PortAddr) : BitVec 3 := if port = nullPort then 0b000#3 else 0b111#3

/-- `ready`: INITSTAT = 0b111 (R108, R116). -/
def SeqState.ready (b : SeqState) : Bool := b.initstat == 0b111#3

/-- The byte ISREADY returns (R108). -/
def readyByte (b : SeqState) : Byte := if b.ready then 0x01#8 else 0x00#8

end Sys2Proof.Machine
end

