-- ==== Sys2Proof/Machine/Ops.lean ====
section
/-! DEFINITION. The named operations: the port registers, the port bus (rules R54..R58), accepting, raising and
completing (R203..R206), the port primitives and the hold (R130..R141), and reset (R230..R232). -/

namespace Sys2Proof.Machine

/-! ## The port registers -/

/-- What a port register that nothing has listed reads as: 0x00, the start value of the test vectors (log entry 4). -/
def Memory.unlisted : Byte := 0x00#8

/-- The value of the port register at an address (R50). -/
def Memory.read : Memory → Nat → Byte
  | [], _ => Memory.unlisted
  | (b, u) :: m, a => if a = b then u else Memory.read m a

/-- The registers with the one at an address replaced, in canonical form again (R50). -/
def Memory.write : Memory → Nat → Byte → Memory
  | [], a, v => if v = Memory.unlisted then [] else [(a, v)]
  | (b, u) :: m, a, v =>
    if a < b then (if v = Memory.unlisted then (b, u) :: m else (a, v) :: (b, u) :: m)
    else if a = b then (if v = Memory.unlisted then m else (a, v) :: m)
    else (b, u) :: Memory.write m a v

/-- Canonical form from an address on: rising addresses below 0x1000, no entry equal to the unlisted value. -/
def Memory.wfFrom (lo : Nat) : Memory → Bool
  | [] => true
  | (b, u) :: m => decide (lo ≤ b) && decide (b < 4096) && decide (u ≠ Memory.unlisted) && Memory.wfFrom (b + 1) m

/-- The canonical form of the port registers: addresses 0x001..0xFFF (R51, R53), rising, none at the unlisted value. -/
def Memory.wf (m : Memory) : Bool := Memory.wfFrom 1 m

/-- The read-modify-write of one register: `(old & ~clr) | set` (R55). -/
def rmwValue (old clr set : Byte) : Byte := (old &&& ~~~clr) ||| set

/-! ## The port bus -/

/-- The value the port environment supplies to the block's next transaction, at port address a; none when it never
answers (R57, R247). -/
def State.busValue (s : State) (a : PortAddr) : Option Byte :=
  match s.answers with
  | [] => some (s.ports.read a.toNat)
  | .register :: _ => some (s.ports.read a.toNat)
  | .supply v :: _ => some v
  | .silent :: _ => none

/-- What a port primitive comes to: done, with what it returns; never answered; or not allowed. -/
inductive PrimResult where
  | done (s : State)
  | unanswered
  | bad (f : Fault)
deriving DecidableEq, Repr

/-- PortRead(a): one read transaction, its value handed to `use` (R54). -/
def portRead (a : PortAddr) (use : Byte → SeqState → SeqState) (s : State) : PrimResult :=
  match s.busValue a with
  | none => .unanswered
  | some v => .done { s with blk := use v s.blk, answers := s.answers.tail, trace := s.trace ++ [.read a v] }

/-- PortRMW(a, clr, set): one indivisible read-modify-write (R55). -/
def portRMW (a : PortAddr) (clr set : Byte) (s : State) : PrimResult :=
  match s.busValue a with
  | none => .unanswered
  | some old =>
    .done { s with
      ports := s.ports.write a.toNat (rmwValue old clr set)
      answers := s.answers.tail
      trace := s.trace ++ [.rmw a clr set (rmwValue old clr set)] }

/-- A primitive runs only at a port that is not null and a pin index 0..7 (R138). -/
def portGuard (a : PortAddr) (i : PinCode) (r : PrimResult) : PrimResult :=
  if a = nullPort then .bad .nullPort else if pinIsIndex i then r else .bad .pinIndexAbove7

/-- SETBIT(a, i) (R131). -/
def setBit (a : PortAddr) (i : PinCode) (s : State) : PrimResult :=
  portGuard a i (portRMW a 0x00#8 (pinMask i) s)

/-- CLEARBIT(a, i) (R133). -/
def clearBit (a : PortAddr) (i : PinCode) (s : State) : PrimResult :=
  portGuard a i (portRMW a (pinMask i) 0x00#8 s)

/-- READBIT(a, i), its bit accumulated at cycle c in the order ord (R135, R152, R154). -/
def readBit (a : PortAddr) (i : PinCode) (c : Fin 8) (ord : BitOrder) (s : State) : PrimResult :=
  portGuard a i (portRead a (fun v b => { b with acc := accumulate b.acc (pinLevel v i) c ord }) s)

/-- The start of DELAY(): HOLDLEFT <- n (R139). -/
def startHold (n : Ticks) (s : State) : PrimResult :=
  .done { s with blk := { s.blk with holdLeft := n.toNat }, trace := s.trace ++ [.hold n] }

/-- One tick of the hold in progress: HOLDLEFT <- HOLDLEFT - 1 (R139). -/
def tick (s : State) : State := s.withBlk { s.blk with holdLeft := s.blk.holdLeft - 1 }

/-! ## The life of a command -/

/-- The first effects of accept(w): BUSY <- 1, CMD <- w (R206). -/
def SeqState.accept (b : SeqState) (w : Word) : SeqState := { b with busy := true, cmd := w }

/-- `raise <Status>()`, the block's one way to report an error (R203). Nothing saves a state and nothing returns: the
block waits for the next command (R209). -/
def SeqState.raise (b : SeqState) (st : Status) : SeqState :=
  { b with code := st.code, busy := false, ops := [], holdLeft := 0 }

/-- `complete()`: CODE <- OK, BUSY <- 0 (R205). -/
def SeqState.complete (b : SeqState) : SeqState := { b with code := Status.ok.code, busy := false }

/-- The bit cycle of the head of a micro-operation list; the one given when the list is empty (R30; log entry 20). -/
def headCycle (ops : List MicroEntry) (c : Fin 8) : Fin 8 :=
  match ops with
  | [] => c
  | e :: _ => e.cycle

/-- OPS <- the micro-operation list of the accepted command, fixed now; ACC <- 0x00 and no hold is in progress
(R30, R31, R206). -/
def SeqState.load (b : SeqState) (ops : List MicroEntry) : SeqState :=
  { b with ops := ops, acc := 0x00#8, biti := headCycle ops 0, holdLeft := 0 }

/-- The head of OPS has been performed, or its hold has started: the rest is still to perform. DESIGN CHOICE: a DELAY
leaves OPS when its hold starts, so BITI is the cycle of what follows while the hold is in progress (log entry 20). -/
def SeqState.advance (b : SeqState) (rest : List MicroEntry) : SeqState :=
  { b with ops := rest, biti := headCycle rest b.biti }

/-- TRANSFER returns its accumulated byte in RESULT; the other commands with micro-operations return nothing (R23). -/
def returnsAcc : Instr → Bool
  | .bind _ _ _ => false
  | .init _ _ _ _ _ => false
  | .isready => false
  | .setdelay _ => false
  | .transfer _ _ => true
  | .trigger => false
  | .writecs _ => false
  | .clear => true

/-- The command word in CMD is one whose completion writes RESULT (R152, R205). -/
def cmdReturnsAcc (w : Word) : Bool :=
  match decodeWord w with
  | .ok i => returnsAcc i
  | .error _ => false

/-- The completion step of a command whose micro-operations are all performed: RESULT <- ACC for TRANSFER, then
complete() (R152, R181, R184, R205). -/
def SeqState.finish (b : SeqState) : SeqState :=
  if cmdReturnsAcc b.cmd then ({ b with result := b.acc } : SeqState).complete else b.complete

/-- WRITEPIN(r, b): the one micro-operation that drives role r's pin to a level (R137). -/
def writePin (bd : Binding) (level : Bool) : MicroOp :=
  if level then .setBit bd.port bd.pin else .clearBit bd.port bd.pin

/-- A micro-operation has been tried: the machine goes on past it, waits for a bus that never answers, or stops. -/
def PrimResult.outcome (r : PrimResult) (rest : List MicroEntry) (s : State) :
    Host.Outcome State Fault Refusal :=
  match r with
  | .done t => .next (t.withBlk (t.blk.advance rest))
  | .unanswered => .next s
  | .bad f => .fault f

/-- One micro-operation of OPS, `rest` being what follows it (R64, R130, R206). -/
def performMicro (e : MicroEntry) (rest : List MicroEntry) (s : State) : Host.Outcome State Fault Refusal :=
  match e.op with
  | .setBit a i => (setBit a i s).outcome rest s
  | .clearBit a i => (clearBit a i s).outcome rest s
  | .readBit a i ord => (readBit a i e.cycle ord s).outcome rest s
  | .delay n => (startHold n s).outcome rest s

/-- One step of a running command: a tick of the hold in progress, else the next micro-operation, else completion
(R206). -/
def runningStep (s : State) : Host.Outcome State Fault Refusal :=
  if s.blk.holdLeft = 0 then
    match s.blk.ops with
    | [] => .next (s.withBlk s.blk.finish)
    | e :: rest => performMicro e rest s
  else .next (tick s)

/-! ## The other agents -/

/-- Reset: every piece of block state at its reset value, at once, no port transaction; the port registers, the
offered words and the parameters stay (R230, R231, R232). -/
def resetBlock (s : State) : State := s.withBlk SeqState.reset

/-- Another agent's transaction on a port register (R9, R212); port address 0 names no register (log entry 9). -/
def envWrite (a : PortAddr) (clr set : Byte) (s : State) : State :=
  if a = nullPort then s
  else { s with ports := s.ports.write a.toNat (rmwValue (s.ports.read a.toNat) clr set) }

/-- The host offers one more command word; words are taken in the order offered (R206). -/
def hostOffer (w : Word) (s : State) : State := { s with offered := s.offered ++ [w] }

end Sys2Proof.Machine
end

