-- ==== Sys2Proof/Machine/Configure.lean ====
section
/-! DEFINITION. BIND, INIT, ISREADY and SETDELAY (rules R100..R112): each accepted and completed in one step, with no
port transaction and no hold. -/

namespace Sys2Proof.Machine

/-- BIND[ROLE] <- (PORT, PIN) and the role's INITSTAT bit (R101). -/
def SeqState.recordBinding (b : SeqState) (role : Role) (port : PortAddr) (pin : PinCode) : SeqState :=
  { b with bind := b.bind.set role { port := port, pin := pin },
           initstat := initstatAfterBind b.initstat role port }

/-- BIND (R101, R102). -/
def execBind (role : Role) (port : PortAddr) (pin : PinCode) (s : State) : Host.Outcome State Fault Refusal :=
  let b := s.blk.accept (encode (.bind role port pin))
  if pinLegal role pin then .next (s.withBlk (b.recordBinding role port pin).complete)
  else .next (s.withBlk (b.raise .pinIndexOutOfRange))

/-- All four pin codes of an INIT are legal for their roles (R104). -/
def initPinsLegal (mosiPin misoPin clkPin selPin : PinCode) : Bool :=
  pinLegal .mosi mosiPin && pinLegal .miso misoPin && pinLegal .clk clkPin && pinLegal .sel selPin

/-- INIT (R104, R105): all four pins are checked before anything is written. -/
def execInit (port : PortAddr) (mosiPin misoPin clkPin selPin : PinCode) (s : State) :
    Host.Outcome State Fault Refusal :=
  let b := s.blk.accept (encode (.init port mosiPin misoPin clkPin selPin))
  if initPinsLegal mosiPin misoPin clkPin selPin then
    .next (s.withBlk ({ b with
      bind := { mosi := { port := port, pin := mosiPin }, miso := { port := port, pin := misoPin },
                clk := { port := port, pin := clkPin }, sel := { port := port, pin := selPin } }
      initstat := initstatAfterInit port } : SeqState).complete)
  else .next (s.withBlk (b.raise .pinIndexOutOfRange))

/-- ISREADY (R108). -/
def execIsready (s : State) : Host.Outcome State Fault Refusal :=
  let b := s.blk.accept (encode .isready)
  .next (s.withBlk ({ b with result := readyByte b } : SeqState).complete)

/-- SETDELAY (R111): a non-positive operand leaves DELAY unchanged, with status OK. -/
def execSetdelay (ticks : Ticks) (s : State) : Host.Outcome State Fault Refusal :=
  let b := s.blk.accept (encode (.setdelay ticks))
  if ticksPositive ticks then .next (s.withBlk ({ b with delay := ticks } : SeqState).complete)
  else .next (s.withBlk b.complete)

end Sys2Proof.Machine
end

