-- ==== Sys2Proof/Machine/Transfer.lean ====
section
/-! DEFINITION. TRANSFER and CLEAR (rules R150..R162): acceptance, the checks, and the micro-operation list fixed then. -/

namespace Sys2Proof.Machine

/-- READBIT of MISO, where the cycle has one at this sample point (R153, R155). -/
def sampleOps (b : SeqState) (ord : BitOrder) (here : Bool) : List MicroOp :=
  if b.misoPresent && here then [.readBit b.bind.miso.port b.bind.miso.pin ord] else []

/-- The write of MOSI's output bit, where MOSI is present (R152, R155). -/
def dataOps (b : SeqState) (level : Bool) : List MicroOp :=
  if b.mosiPresent then [writePin b.bind.mosi level] else []

/-- One pulse of a pin: raise, DELAY, lower, DELAY (R150, R181). -/
def pulseOps (bd : Binding) (delay : Ticks) : List MicroOp :=
  [.setBit bd.port bd.pin, .delay delay, .clearBit bd.port bd.pin, .delay delay]

/-- The micro-operations of bit cycle i, in the order of R155. -/
def cycleOps (sp : SamplePoint) (b : SeqState) (val : Byte) (ord : BitOrder) (i : Fin 8) : List MicroOp :=
  dataOps b (outBit val ord i) ++ sampleOps b ord (sp == .beforePulse) ++ pulseOps b.bind.clk b.delay ++
    sampleOps b ord (sp == .afterPulse)

/-- The eight bit cycles, in order (R150). -/
def bitCycles : List (Fin 8) := [0, 1, 2, 3, 4, 5, 6, 7]

/-- The micro-operation list of a TRANSFER (R31, R155). -/
def transferOps (sp : SamplePoint) (b : SeqState) (val : Byte) (ord : BitOrder) : List MicroEntry :=
  bitCycles.flatMap fun i => (cycleOps sp b val ord i).map fun op => { cycle := i, op := op }

/-- Acceptance of the TRANSFER whose word is w: the checks of R152 in their order, then OPS (R206, R207). -/
def acceptTransfer (w : Word) (val : Byte) (ord : BitOrder) (s : State) : State :=
  let b := s.blk.accept w
  if !b.ready then s.withBlk (b.raise .invalidBinding)
  else if b.misoInvalid then s.withBlk (b.raise .invalidBinding)
  else s.withBlk (b.load (transferOps s.cfg.samplePoint b val ord))

/-- TRANSFER (R152). -/
def execTransfer (val : Byte) (ord : BitOrder) (s : State) : Host.Outcome State Fault Refusal :=
  .next (acceptTransfer (encode (.transfer val ord)) val ord s)

/-- CLEAR: TRANSFER(0x00, LSB_FIRST) (R160). -/
def execClear (s : State) : Host.Outcome State Fault Refusal :=
  .next (acceptTransfer (encode .clear) 0x00#8 .lsbFirst s)

end Sys2Proof.Machine
end

