-- ==== Sys2Proof/Machine/Select.lean ====
section
/-! DEFINITION. TRIGGER and WRITECS (rules R180..R186): acceptance, the readiness check, and the micro-operation list. -/

namespace Sys2Proof.Machine

/-- The entries of a command that has no bit cycles (R30). -/
def selectEntries (ops : List MicroOp) : List MicroEntry := ops.map fun op => { cycle := 0, op := op }

/-- Acceptance of a command on SEL whose word is w: the readiness check, then OPS (R202, R206). -/
def acceptSelect (w : Word) (ops : List MicroOp) (s : State) : State :=
  let b := s.blk.accept w
  if b.ready then s.withBlk (b.load (selectEntries ops)) else s.withBlk (b.raise .invalidBinding)

/-- TRIGGER: raise SEL, DELAY, lower it, DELAY (R181). -/
def execTrigger (s : State) : Host.Outcome State Fault Refusal :=
  .next (acceptSelect (encode .trigger) (pulseOps s.blk.bind.sel s.blk.delay) s)

/-- WRITECS: drive SEL to LVL, with no DELAY (R184). -/
def execWritecs (lvl : Bool) (s : State) : Host.Outcome State Fault Refusal :=
  .next (acceptSelect (encode (.writecs lvl)) [writePin s.blk.bind.sel lvl] s)

end Sys2Proof.Machine
end

