-- ==== Sys2Proof/Machine/Dispatch.lean ====
section
/-! DEFINITION. exec: accept(w) for a word that decodes to the command (rule R206), one arm per command. It is
enabled only while the block is idle; Sequencer.lean sees to that. -/

namespace Sys2Proof.Machine

def exec (i : Instr) (s : State) : Host.Outcome State Fault Refusal :=
  match i with
  | .bind role port pin => Sys2Proof.Machine.execBind role port pin s
  | .init port mosiPin misoPin clkPin selPin => Sys2Proof.Machine.execInit port mosiPin misoPin clkPin selPin s
  | .isready => Sys2Proof.Machine.execIsready s
  | .setdelay ticks => Sys2Proof.Machine.execSetdelay ticks s
  | .transfer val ord => Sys2Proof.Machine.execTransfer val ord s
  | .trigger => Sys2Proof.Machine.execTrigger s
  | .writecs lvl => Sys2Proof.Machine.execWritecs lvl s
  | .clear => Sys2Proof.Machine.execClear s

end Sys2Proof.Machine
end

