-- ==== Sys2Proof/Machine/Sequencer.lean ====
section
/-! DEFINITION. The block's own step and the turns of the agents around it (rules R3, R9, R206, R230). -/

namespace Sys2Proof.Machine

/-- accept(w): decode, then the command's acceptance; a word that decodes to nothing raises ILLEGAL_COMMAND and has no
other effect (R82, R206, R207). -/
def acceptWord (w : Word) (s : State) : Host.Outcome State Fault Refusal :=
  match decodeWord w with
  | .ok i => exec i s
  | .error _ => .next (s.withBlk ((s.blk.accept w).raise .illegalCommand))

/-- The block's step: go on with the running command; when idle, accept the next offered word, or wait for one
(R203, R206, R215). -/
def sequencerStep (s : State) : Host.Outcome State Fault Refusal :=
  if s.blk.busy then runningStep s
  else
    match s.offered with
    | [] => .next s
    | w :: rest => acceptWord w { s with offered := rest }

/-- One turn of one agent (R9). -/
def takeTurn (t : Turn) (s : State) : Host.Outcome State Fault Refusal :=
  match t with
  | .sequencer => sequencerStep s
  | .hostOffer w => .next (hostOffer w s)
  | .hostReset => .next (resetBlock s)
  | .envWrite a clr set => .next (envWrite a clr set s)
  | .stall => .next s

/-- The next turn of the agenda, or the block's own when the agenda is empty (R9, R64). -/
def agendaStep (s : State) : Host.Outcome State Fault Refusal :=
  match s.agenda with
  | [] => sequencerStep s
  | t :: rest => takeTurn t { s with agenda := rest }

/-- The machine with the block idle, an instruction's word offered next, and the next turn the block's. -/
def placeWord (s : State) (w : Word) : State :=
  { s with
    blk := { s.blk with busy := false, ops := [], holdLeft := 0 }
    offered := w :: s.offered
    agenda := .sequencer :: s.agenda }

end Sys2Proof.Machine
end

