-- ==== Sys2Proof/Machine/Assembler.lean ====
section
/-! DEFINITION. The assembler syntax (rules R85, R86, R87): source lines, the words they assemble to, the line a word
disassembles to, and their spelling as text. No step of the machine uses this file. -/

namespace Sys2Proof.Machine

/-- A pin operand: a number or `nopin` (R85). -/
inductive PinArg where
  | index (n : Nat)
  | nopin
deriving DecidableEq, Repr

/-- A line of assembly, before its operands' ranges are checked (R85, R86). -/
inductive AsmLine where
  | bind (role : Role) (port : Nat) (pin : PinArg)
  | init (port : Nat) (mosiPin misoPin clkPin selPin : PinArg)
  | isready
  | setdelay (ticks : Int)
  | transfer (val : Nat) (ord : BitOrder)
  | trigger
  | writecs (lvl : Nat)
  | clear
  | word (w : Nat)
deriving DecidableEq, Repr

/-- The pin code of a pin operand the assembler accepts: 0..7 or `nopin` (R85). -/
def PinArg.code : PinArg → Option PinCode
  | .index n => if n ≤ 7 then some (BitVec.ofNat 4 n) else none
  | .nopin => some noPin

/-- A number that fits in a field of w bits. -/
def fieldArg (w n : Nat) : Option (BitVec w) := if n < 2 ^ w then some (BitVec.ofNat w n) else none

/-- The word of a line; none where the assembler refuses an operand outside its range (R85, R86). -/
def assemble : AsmLine → Option Word
  | .bind role port pin => do
    let p ← fieldArg 12 port
    let c ← pin.code
    return encode (.bind role p c)
  | .init port mosiPin misoPin clkPin selPin => do
    let p ← fieldArg 12 port
    let m ← mosiPin.code
    let i ← misoPin.code
    let c ← clkPin.code
    let s ← selPin.code
    return encode (.init p m i c s)
  | .isready => some (encode .isready)
  | .setdelay t => if -32768 ≤ t ∧ t ≤ 32767 then some (encode (.setdelay (BitVec.ofInt 16 t))) else none
  | .transfer val ord => do
    let v ← fieldArg 8 val
    return encode (.transfer v ord)
  | .trigger => some (encode .trigger)
  | .writecs lvl => if lvl ≤ 1 then some (encode (.writecs (lvl == 1))) else none
  | .clear => some (encode .clear)
  | .word w => fieldArg 32 w

/-- The pin operand that prints a pin code; none for 8..14, which the assembler does not accept (R87). -/
def pinArgOf (c : PinCode) : Option PinArg :=
  if c = noPin then some .nopin else if c.toNat ≤ 7 then some (.index c.toNat) else none

/-- The line that prints a decoded command; none where a pin code has no spelling (R87). -/
def lineOf : Instr → Option AsmLine
  | .bind role port pin => do
    let p ← pinArgOf pin
    return .bind role port.toNat p
  | .init port mosiPin misoPin clkPin selPin => do
    let m ← pinArgOf mosiPin
    let i ← pinArgOf misoPin
    let c ← pinArgOf clkPin
    let s ← pinArgOf selPin
    return .init port.toNat m i c s
  | .isready => some .isready
  | .setdelay ticks => some (.setdelay ticks.toInt)
  | .transfer val ord => some (.transfer val.toNat ord)
  | .trigger => some .trigger
  | .writecs lvl => some (.writecs lvl.toNat)
  | .clear => some .clear

/-- Disassembly: the line of a word, `.word` for an illegal word or a pin code 8..14 (R87). -/
def disassemble (w : Word) : AsmLine :=
  match decodeWord w with
  | .error _ => .word w.toNat
  | .ok i => (lineOf i).getD (.word w.toNat)

/-! ## Text -/

/-- The digits of a number in a base up to 16, at least `width` of them, at most `fuel`. -/
def digitChars (base : Nat) (width : Nat) : Nat → Nat → List Char
  | 0, _ => []
  | fuel + 1, n =>
    if n < base ∧ width ≤ 1 then [Nat.digitChar n |>.toUpper]
    else digitChars base (width - 1) fuel (n / base) ++ [Nat.digitChar (n % base) |>.toUpper]

/-- A number in decimal. -/
def decText (n : Nat) : List Char := digitChars 10 1 40 n

/-- A number as `0x` and hexadecimal digits. -/
def hexText (width n : Nat) : List Char := ['0', 'x'] ++ digitChars 16 width 40 n

/-- A role's operand name (R85). -/
def roleText : Role → List Char
  | .mosi => "mosi".toList
  | .miso => "miso".toList
  | .clk => "clk".toList
  | .sel => "sel".toList

/-- A bit order's operand name (R85). -/
def orderText : BitOrder → List Char
  | .msbFirst => "msb".toList
  | .lsbFirst => "lsb".toList

/-- A pin operand's spelling (R85). -/
def pinText : PinArg → List Char
  | .index n => decText n
  | .nopin => "nopin".toList

/-- A signed number in decimal. -/
def intText : Int → List Char
  | .ofNat n => decText n
  | .negSucc n => '-' :: decText (n + 1)

/-- A mnemonic with its operands, separated by commas (R85). -/
def lineText (mnemonic : String) (operands : List (List Char)) : List Char :=
  mnemonic.toList ++ (if operands.isEmpty then [] else ' ' :: ", ".toList.intercalate operands)

/-- A line as text, in the form of R85 (R87; the number bases of operands other than `.word`'s: log entry 12). -/
def AsmLine.text : AsmLine → List Char
  | .bind role port pin => lineText "bind" [roleText role, hexText 3 port, pinText pin]
  | .init port m i c s => lineText "init" [hexText 3 port, pinText m, pinText i, pinText c, pinText s]
  | .isready => lineText "isready" []
  | .setdelay t => lineText "setdelay" [intText t]
  | .transfer val ord => lineText "transfer" [hexText 2 val, orderText ord]
  | .trigger => lineText "trigger" []
  | .writecs lvl => lineText "writecs" [decText lvl]
  | .clear => lineText "clear" []
  | .word w => lineText ".word" [hexText 8 w]

/-- The value of a digit, hexadecimal letters in either case. -/
def digitValue (c : Char) : Nat :=
  if '0' ≤ c ∧ c ≤ '9' then c.toNat - '0'.toNat
  else if 'a' ≤ c ∧ c ≤ 'f' then c.toNat - 'a'.toNat + 10
  else if 'A' ≤ c ∧ c ≤ 'F' then c.toNat - 'A'.toNat + 10
  else 16

/-- The number whose digits in a base follow an accumulated value. -/
def readDigits (base : Nat) : Nat → List Char → Option Nat
  | acc, [] => some acc
  | acc, c :: cs => if digitValue c < base then readDigits base (acc * base + digitValue c) cs else none

/-- A number: decimal, `0x` hexadecimal or `0b` binary (R85). -/
def readNat : List Char → Option Nat
  | [] => none
  | ['0', 'x'] => none
  | ['0', 'b'] => none
  | '0' :: 'x' :: cs => readDigits 16 0 cs
  | '0' :: 'b' :: cs => readDigits 2 0 cs
  | cs => readDigits 10 0 cs

/-- A number that may be negative, for `setdelay` (R85). -/
def readInt : List Char → Option Int
  | '-' :: cs => (readNat cs).map fun n => -(n : Int)
  | cs => (readNat cs).map Int.ofNat

/-- The characters without the blanks at their ends. -/
def trimBlanks (cs : List Char) : List Char :=
  ((cs.dropWhile Char.isWhitespace).reverse.dropWhile Char.isWhitespace).reverse

/-- The parts of the characters between commas, without blanks at their ends. -/
def splitCommas : List Char → List Char → List (List Char)
  | part, [] => [trimBlanks part.reverse]
  | part, c :: cs => if c = ',' then trimBlanks part.reverse :: splitCommas [] cs else splitCommas (c :: part) cs

/-- A role operand (R85). -/
def readRole (cs : List Char) : Option Role :=
  if cs = "mosi".toList then some .mosi else if cs = "miso".toList then some .miso
  else if cs = "clk".toList then some .clk else if cs = "sel".toList then some .sel else none

/-- A bit-order operand (R85). -/
def readOrder (cs : List Char) : Option BitOrder :=
  if cs = "msb".toList then some .msbFirst else if cs = "lsb".toList then some .lsbFirst else none

/-- A pin operand (R85). -/
def readPin (cs : List Char) : Option PinArg :=
  if cs = "nopin".toList then some .nopin else (readNat cs).map PinArg.index

/-- A line of a mnemonic and its operands (R85, R86). -/
def readLine (mnemonic : List Char) (operands : List (List Char)) : Option AsmLine :=
  match operands with
  | [] =>
    if mnemonic = "isready".toList then some .isready
    else if mnemonic = "trigger".toList then some .trigger
    else if mnemonic = "clear".toList then some .clear
    else none
  | [x] =>
    if mnemonic = "setdelay".toList then (readInt x).map AsmLine.setdelay
    else if mnemonic = "writecs".toList then (readNat x).map AsmLine.writecs
    else if mnemonic = ".word".toList then (readNat x).map AsmLine.word
    else none
  | [x, y] =>
    if mnemonic = "transfer".toList then do return AsmLine.transfer (← readNat x) (← readOrder y) else none
  | [x, y, z] =>
    if mnemonic = "bind".toList then do return AsmLine.bind (← readRole x) (← readNat y) (← readPin z) else none
  | [v, w, x, y, z] =>
    if mnemonic = "init".toList then do
      return AsmLine.init (← readNat v) (← readPin w) (← readPin x) (← readPin y) (← readPin z)
    else none
  | _ => none

/-- A line of text, case-insensitive, its operands separated by commas (R85). -/
def parseLine (text : List Char) : Option AsmLine :=
  let cs := trimBlanks (text.map Char.toLower)
  let mnemonic := cs.takeWhile fun c => !c.isWhitespace
  let operands := trimBlanks (cs.drop mnemonic.length)
  readLine mnemonic (if operands.isEmpty then [] else splitCommas [] operands)

/-- The word of a line of text (R85). -/
def assembleText (text : String) : Option Word := (parseLine text.toList).bind assemble

end Sys2Proof.Machine
end

