-- ==== Sys2Proof/Machine/HostRead.lean ====
section
/-! DEFINITION. The host register space (rules R21..R26, R52, R60): HOSTREAD(n), which has no side effect. -/

namespace Sys2Proof.Machine

/-- STATUS: CODE in 3:0, BUSY in 4 (R22). -/
def statusWord (b : SeqState) : Word := (0#27 ++ BitVec.ofBool b.busy ++ b.code : BitVec 32)

/-- RESULT: DATA in 7:0 (R23). -/
def resultWord (b : SeqState) : Word := (0#24 ++ b.result : BitVec 32)

/-- DELAY: TICKS in 15:0 (R24). -/
def delayWord (b : SeqState) : Word := (0#16 ++ b.delay : BitVec 32)

/-- INITSTAT: MOSI_OK, CLK_OK and SEL_OK in 2:0 (R25). -/
def initstatWord (b : SeqState) : Word := (0#29 ++ b.initstat : BitVec 32)

/-- BIND_<role>: PIN in 7:4, PORT in 31:20 (R26). -/
def bindingWord (bd : Binding) : Word := (bd.port ++ 0#12 ++ bd.pin ++ 0#4 : BitVec 32)

/-- The number of a role's binding register: 4 + role code (R21, R75). -/
def bindingNumber (r : Role) : BitVec 4 := 4#4 + r.code.setWidth 4

/-- HOSTREAD(n): the value of register n now; 8..15 read as zero (R60). -/
def hostRead (n : BitVec 4) (s : State) : Word :=
  if n = 0#4 then statusWord s.blk
  else if n = 1#4 then resultWord s.blk
  else if n = 2#4 then delayWord s.blk
  else if n = 3#4 then initstatWord s.blk
  else if n = 4#4 then bindingWord s.blk.bind.mosi
  else if n = 5#4 then bindingWord s.blk.bind.miso
  else if n = 6#4 then bindingWord s.blk.bind.clk
  else if n = 7#4 then bindingWord s.blk.bind.sel
  else 0#32

end Sys2Proof.Machine
end

