-- ==== Sys2Proof/Safety.lean ====
section
/-! DEFINITION. What claims are stated in: the invariant of the reachable states (rules R22, R24..R26, R30, R31, R138),
a quiet environment (R57), a run and what is observed at its end (R246), and a safe run. -/

namespace Sys2Proof.Machine

/-- A binding a role can hold: a legal pin code, or the reset value (R26). -/
def Binding.legalFor (bd : Binding) (r : Role) : Bool :=
  pinLegal r bd.pin || (bd.port == nullPort && bd.pin == noPin)

/-- The INITSTAT that a binding table stands for (R25). -/
def Bindings.initstat (b : Bindings) : BitVec 3 :=
  (BitVec.ofBool (b.sel.port != nullPort) ++ BitVec.ofBool (b.clk.port != nullPort) ++
    BitVec.ofBool (b.mosi.port != nullPort) : BitVec 3)

/-- A micro-operation the block can perform under DELAY = d: a real port, a pin index, a hold of DELAY ticks
(R31, R138, R139). -/
def MicroOp.legal (d : Ticks) : MicroOp → Bool
  | .setBit a i => a != nullPort && pinIsIndex i
  | .clearBit a i => a != nullPort && pinIsIndex i
  | .readBit a i _ => a != nullPort && pinIsIndex i
  | .delay n => n == d

/-- The commands that have micro-operations: the others complete in the step that accepts them (R206). -/
def hasMicroOps : Instr → Bool
  | .bind _ _ _ => false
  | .init _ _ _ _ _ => false
  | .isready => false
  | .setdelay _ => false
  | .transfer _ _ => true
  | .trigger => true
  | .writecs _ => true
  | .clear => true

/-- The word in CMD is that of a command with micro-operations. -/
def cmdRuns (w : Word) : Bool :=
  match decodeWord w with
  | .ok i => hasMicroOps i
  | .error _ => false

/-- The invariant of the reachable states. -/
structure State.Inv (s : State) : Prop where
  /-- CODE is 0..3 (R22). -/
  codeLegal    : s.blk.code.toNat ≤ 3
  /-- 1 <= DELAY.TICKS <= 32767 (R24). -/
  delayRange   : 1 ≤ s.blk.delay.toNat ∧ s.blk.delay.toNat ≤ 32767
  /-- Each INITSTAT bit is 1 iff its role's port is not null (R25). -/
  initstatBits : s.blk.initstat = s.blk.bind.initstat
  /-- Pin codes 8..14 are never stored, and NOPIN for CLK and SEL only as the reset value (R26). -/
  bindLegal    : ∀ r, (s.blk.bind.get r).legalFor r
  /-- An idle block has no micro-operation and no hold (R30). -/
  idleEmpty    : s.blk.busy = false → s.blk.ops = [] ∧ s.blk.holdLeft = 0
  /-- A running block runs a command that has micro-operations (R206). -/
  runningCmd   : s.blk.busy = true → cmdRuns s.blk.cmd = true
  /-- Every micro-operation has a real port and a pin index, and every hold waits DELAY.TICKS (R31, R138). -/
  opsLegal     : ∀ e ∈ s.blk.ops, e.op.legal s.blk.delay
  /-- BITI is the bit cycle of the head of OPS (R30). -/
  bitiHead     : s.blk.biti = headCycle s.blk.ops s.blk.biti
  /-- HOLDLEFT is at most DELAY.TICKS (R30, R139). -/
  holdRange    : s.blk.holdLeft ≤ s.blk.delay.toNat
  /-- The port registers are in canonical form: no register at the null port (R50, R51). -/
  portsWf      : s.ports.wf

/-- Plain registers with no other writer: the default port environment (R8, R57), and no other agent's turn to come. -/
def State.Quiet (s : State) : Prop := s.agenda = [] ∧ s.answers = []

/-- `n` steps from `s`, none of which stops, end in `t`. -/
def Steps (n : Nat) (s t : State) : Prop := Host.Core.run Sys2Proof.core n s = .next t

/-- The outcome is a next state that satisfies `p`. -/
def nextSatisfies (o : Host.Outcome State Fault Refusal) (p : State → Bool) : Bool :=
  match o with
  | .next t => p t
  | .fault _ => false
  | .refused _ => false

/-- What the block leaves of everything outside it: parameters, port registers, offered words, turns and answers to
come, and the list of what it did on the port bus. -/
def SameOutside (s t : State) : Prop :=
  t.cfg = s.cfg ∧ (∀ a, t.ports.read a = s.ports.read a) ∧ t.ports = s.ports ∧ t.offered = s.offered ∧
    t.agenda = s.agenda ∧ t.answers = s.answers ∧ t.trace = s.trace

/-- Bit i of port register a. -/
def State.pinAt (s : State) (a : PortAddr) (i : PinCode) : Bool := pinLevel (s.ports.read a.toNat) i

/-- Every port-bus transaction to come is answered (R247). -/
def State.answered (s : State) : Bool := s.answers.all fun a => a != .silent

/-- The event that performing a micro-operation puts on the trace, whatever the values on the bus (R58, R155). -/
def MicroOp.shows : MicroOp → BusEvent → Prop
  | .setBit a i, .rmw b clr set _ => b = a ∧ clr = 0x00#8 ∧ set = pinMask i
  | .clearBit a i, .rmw b clr set _ => b = a ∧ clr = pinMask i ∧ set = 0x00#8
  | .readBit a _ _, .read b _ => b = a
  | .delay n, .hold m => m = n
  | _, _ => False

/-- The block steps a micro-operation takes: one, and for DELAY its ticks (R139, R247). -/
def MicroOp.steps : MicroOp → Nat
  | .setBit _ _ => 1
  | .clearBit _ _ => 1
  | .readBit _ _ _ => 1
  | .delay n => 1 + n.toNat

/-- The block steps from a loaded micro-operation list to idle: the list, then completion (R206, R247). -/
def listSteps (ops : List MicroEntry) : Nat := (ops.map fun e => e.op.steps).sum + 1

/-- The values a list of events returned from port reads, in order (R246). -/
def readValues : List BusEvent → List Byte
  | [] => []
  | .rmw _ _ _ _ :: evs => readValues evs
  | .read _ v :: evs => v :: readValues evs
  | .hold _ :: evs => readValues evs

/-- The two commands that return a byte: TRANSFER, and CLEAR as TRANSFER of 0x00, LSB first (R152, R160). -/
def IsTransfer (i : Instr) (val : Byte) (ord : BitOrder) : Prop :=
  i = .transfer val ord ∨ (i = .clear ∧ val = 0x00#8 ∧ ord = .lsbFirst)

/-- The block registers other than STATUS, RESULT and the hidden sequencer state: DELAY, INITSTAT and BIND[*]. -/
def SameSettings (b c : SeqState) : Prop := c.delay = b.delay ∧ c.initstat = b.initstat ∧ c.bind = b.bind

/-- The hidden state a command without micro-operations leaves: all of it but CMD (R30). -/
def SameHidden (b c : SeqState) : Prop :=
  c.ops = b.ops ∧ c.acc = b.acc ∧ c.biti = b.biti ∧ c.holdLeft = b.holdLeft

/-- The end of a run: every offered word accepted, none to come, and BUSY = 0 (R246). DESIGN CHOICE: it reads the state
alone, so it also holds of the idle state that a reset in the middle of a command leaves; R246 gives a run cut by reset
no end, and a claim about ends must set such runs aside (log entry 21). -/
def State.atEnd (s : State) : Bool :=
  !s.blk.busy && s.offered.isEmpty && s.agenda.all fun t => match t with
    | .hostOffer _ => false
    | .sequencer => true
    | .hostReset => true
    | .envWrite _ _ _ => true
    | .stall => true

/-- What R246 observes at the end of a run. -/
structure Observation where
  registers : List Word
  ports     : Memory
  trace     : List BusEvent
deriving DecidableEq, Repr

/-- The observation: STATUS, RESULT, DELAY, INITSTAT and BIND[*], the port registers, the transactions and holds (R246). -/
def State.observe (s : State) : Observation where
  registers := [0#4, 1#4, 2#4, 3#4, 4#4, 5#4, 6#4, 7#4].map fun n => hostRead n s
  ports     := s.ports
  trace     := s.trace

/-- A safe run: no number of steps ends in a fault. -/
def State.Safe (s : State) : Prop := ∀ n f, Host.Core.run Sys2Proof.core n s ≠ .fault f

end Sys2Proof.Machine
end

