-- ==== Sys2Proof/Certificates/Slice0/Obligations.lean ====
section
/-! DEFINITION. The statements for the provers, from the numbered rules of the spec. -/

open Sys2Proof Sys2Proof.Machine

/-! ## Encoding -/

/-- Decoding gives every well-formed command back from its word, and from its four bytes whatever follows (R59, R82). -/
def Obligations.DecodeOfEncodeIsTheCommand : Prop :=
  ∀ (i : Instr) (rest : List Byte), i.wellFormed = true →
    decodeWord (encode i) = .ok i ∧ decode (bytesOfWord (encode i) ++ rest) = .ok (i, rest)

/-- Encoding gives every word that decodes back, and what a word decodes to is well formed (R71, R82). -/
def Obligations.EncodeOfDecodeIsTheWord : Prop :=
  ∀ (w : Word) (i : Instr), decodeWord w = .ok i → encode i = w ∧ i.wellFormed = true

/-- R81's table: a word selects a command exactly when (word & mask) == match. -/
def Obligations.OpcodeMapSelectsTheCommand : Prop :=
  ∀ w : Word,
    (w &&& 0x000FFC0F#32 = 0x00000001#32 ↔ ∃ role port pin, decodeWord w = .ok (.bind role port pin)) ∧
    (w &&& 0x0000000F#32 = 0x00000002#32 ↔ ∃ port m n c s, decodeWord w = .ok (.init port m n c s)) ∧
    (w &&& 0xFFFFFFFF#32 = 0x00000003#32 ↔ decodeWord w = .ok .isready) ∧
    (w &&& 0x0000FFFF#32 = 0x00000004#32 ↔ ∃ ticks, decodeWord w = .ok (.setdelay ticks)) ∧
    (w &&& 0xFFFF00EF#32 = 0x00000005#32 ↔ ∃ i val ord, IsTransfer i val ord ∧ decodeWord w = .ok i) ∧
    (w &&& 0xFFFFFFFF#32 = 0x00000006#32 ↔ decodeWord w = .ok .trigger) ∧
    (w &&& 0xFFFFFFEF#32 = 0x00000007#32 ↔ ∃ lvl, decodeWord w = .ok (.writecs lvl))

/-- A few words of R88, one of each command, decode to the commands they stand for. -/
def Obligations.SpecWordsDecode : Prop :=
  decodeWord 0x01012F02#32 = .ok (.init 0x010#12 0#4 15#4 2#4 1#4) ∧
  decodeWord 0x02065432#32 = .ok (.init 0x020#12 3#4 4#4 5#4 6#4) ∧
  decodeWord 0x01000221#32 = .ok (.bind .clk 0x010#12 2#4) ∧
  decodeWord 0x010001F1#32 = .ok (.bind .miso 0x010#12 15#4) ∧
  decodeWord 0x00000003#32 = .ok .isready ∧
  decodeWord 0xFFFB0004#32 = .ok (.setdelay (BitVec.ofInt 16 (-5))) ∧
  decodeWord 0x0000B205#32 = .ok (.transfer 0xB2#8 .msbFirst) ∧
  decodeWord 0x00005A15#32 = .ok (.transfer 0x5A#8 .lsbFirst) ∧
  decodeWord 0x00000015#32 = .ok .clear ∧
  decodeWord 0x00000006#32 = .ok .trigger ∧
  decodeWord 0x00000017#32 = .ok (.writecs true)

/-- The line a word disassembles to assembles to that word, for every word (R85, R87). -/
def Obligations.AssembleOfDisassembleIsTheWord : Prop := ∀ w : Word, assemble (disassemble w) = some w

/-! ## The life of a command -/

/-- A step of an idle block whose next offered word decodes runs exactly that command, the word taken from the
channel; and the word withFetchWord places is the one the very next step runs (R206). -/
def Obligations.StepRunsTheDecodedCommand : Prop :=
  (∀ (s : State) (w : Word) (rest : List Word) (i : Instr),
    s.agenda = [] → s.blk.busy = false → s.offered = w :: rest → decodeWord w = .ok i →
    step s = exec i { s with offered := rest }) ∧
  (∀ (s : State) (nbits x : Nat) (i : Instr), decodeWord (tableWord nbits x) = .ok i →
    step (s.withFetchWord nbits x) =
      exec i { s with blk := { s.blk with busy := false, ops := [], holdLeft := 0 } })

/-- R82: decoding is total; a word of no row is accepted by an idle block and completes at once with
ILLEGAL_COMMAND and no other effect; the all-zero word is such a word. -/
def Obligations.IllegalWordOnlySetsStatus : Prop :=
  (∀ (w : Word) (k : Opcode), w &&& k.mask = k.pattern → decodeWord w = .ok (k.command w)) ∧
  (∀ (s : State) (w : Word) (rest : List Word), (∀ k : Opcode, w &&& k.mask ≠ k.pattern) →
    s.agenda = [] → s.blk.busy = false → s.offered = w :: rest →
    (∃ e, decodeWord w = .error e) ∧
    ∃ t, step s = .next t ∧ SameOutside { s with offered := rest } t ∧ t.blk.code = 1#4 ∧ t.blk.busy = false ∧
      t.blk.cmd = w ∧ t.blk.ops = [] ∧ t.blk.holdLeft = 0 ∧ t.blk.result = s.blk.result ∧
      t.blk.acc = s.blk.acc ∧ t.blk.biti = s.blk.biti ∧ SameSettings s.blk t.blk) ∧
  (∀ k : Opcode, 0x00000000#32 &&& k.mask ≠ k.pattern)

/-- A word offered while BUSY = 1 is not taken: the offered words stay as they are in every step of the block, and an
idle block with no word to take stays as it is (R206, R215). -/
def Obligations.BusyBlockTakesNoWord : Prop :=
  (∀ s t : State, s.agenda = [] → s.blk.busy = true → step s = .next t → t.offered = s.offered) ∧
  (∀ s : State, s.agenda = [] → s.blk.busy = false → s.offered = [] → step s = .next s)

/-! ## BIND, INIT, ISREADY, SETDELAY -/

/-- R100: BIND, INIT, ISREADY and SETDELAY, whatever their operands and in any state, are accepted and complete in one
step, and leave everything outside the block as it was: no port-bus transaction, no hold. -/
def Obligations.ConfigurationTouchesNoPort : Prop :=
  ∀ (s : State) (i : Instr),
    ((∃ role port pin, i = .bind role port pin) ∨ (∃ port m n c l, i = .init port m n c l) ∨ i = .isready ∨
      (∃ ticks, i = .setdelay ticks)) →
    ∃ t, exec i s = .next t ∧ t.blk.busy = false ∧ SameOutside s t

/-- BIND with a legal pin code records the binding and its role's INITSTAT bit, with status OK, and changes nothing
else but CMD (R101, R102). -/
def Obligations.BindRecordsTheBinding : Prop :=
  ∀ (s : State) (role : Role) (port : PortAddr) (pin : PinCode),
    (pin.toNat ≤ 7 ∨ (pin = 15#4 ∧ (role = .mosi ∨ role = .miso))) →
    ∃ t, exec (.bind role port pin) s = .next t ∧ SameOutside s t ∧
      t.blk.bind.get role = { port := port, pin := pin } ∧
      (∀ q, q ≠ role → t.blk.bind.get q = s.blk.bind.get q) ∧
      t.blk.initstat.getLsbD 0 = (if role = .mosi then decide (port ≠ 0#12) else s.blk.initstat.getLsbD 0) ∧
      t.blk.initstat.getLsbD 1 = (if role = .clk then decide (port ≠ 0#12) else s.blk.initstat.getLsbD 1) ∧
      t.blk.initstat.getLsbD 2 = (if role = .sel then decide (port ≠ 0#12) else s.blk.initstat.getLsbD 2) ∧
      t.blk.code = 0#4 ∧ t.blk.busy = false ∧ t.blk.result = s.blk.result ∧ t.blk.delay = s.blk.delay ∧
      SameHidden s.blk t.blk

/-- INIT with four legal pin codes binds all four roles to its port and sets INITSTAT, with status OK, and changes
nothing else but CMD (R104). -/
def Obligations.InitBindsAllRoles : Prop :=
  ∀ (s : State) (port : PortAddr) (m n c l : PinCode),
    (m.toNat ≤ 7 ∨ m = 15#4) → (n.toNat ≤ 7 ∨ n = 15#4) → c.toNat ≤ 7 → l.toNat ≤ 7 →
    ∃ t, exec (.init port m n c l) s = .next t ∧ SameOutside s t ∧
      t.blk.bind.get .mosi = { port := port, pin := m } ∧ t.blk.bind.get .miso = { port := port, pin := n } ∧
      t.blk.bind.get .clk = { port := port, pin := c } ∧ t.blk.bind.get .sel = { port := port, pin := l } ∧
      t.blk.initstat = (if port ≠ 0#12 then 0b111#3 else 0b000#3) ∧
      t.blk.code = 0#4 ∧ t.blk.busy = false ∧ t.blk.result = s.blk.result ∧ t.blk.delay = s.blk.delay ∧
      SameHidden s.blk t.blk

/-- BIND or INIT with a pin code its role may not have completes with PIN_INDEX_OUT_OF_RANGE; of the block's registers
only STATUS changes, and nothing outside the block (R105, R201, R203). -/
def Obligations.RejectedPinChangesOnlyStatus : Prop :=
  ∀ (s : State) (i : Instr),
    ((∃ role port pin, i = .bind role port pin ∧ 7 < pin.toNat ∧ (pin = 15#4 → role = .clk ∨ role = .sel)) ∨
     (∃ port m n c l, i = .init port m n c l ∧
        ((7 < m.toNat ∧ m ≠ 15#4) ∨ (7 < n.toNat ∧ n ≠ 15#4) ∨ 7 < c.toNat ∨ 7 < l.toNat))) →
    ∃ t, exec i s = .next t ∧ SameOutside s t ∧ SameSettings s.blk t.blk ∧ t.blk.result = s.blk.result ∧
      t.blk.code = 2#4 ∧ t.blk.busy = false ∧ t.blk.ops = [] ∧ t.blk.holdLeft = 0 ∧
      t.blk.acc = s.blk.acc ∧ t.blk.biti = s.blk.biti

/-- R106: an INIT with four legal pin codes has the same effect on BIND[*] and INITSTAT as the four BINDs. -/
def Obligations.InitEqualsFourBinds : Prop :=
  ∀ (s : State) (port : PortAddr) (m n c l : PinCode),
    (m.toNat ≤ 7 ∨ m = 15#4) → (n.toNat ≤ 7 ∨ n = 15#4) → c.toNat ≤ 7 → l.toNat ≤ 7 →
    ∃ t t1 t2 t3 t4, exec (.init port m n c l) s = .next t ∧
      exec (.bind .mosi port m) s = .next t1 ∧ exec (.bind .miso port n) t1 = .next t2 ∧
      exec (.bind .clk port c) t2 = .next t3 ∧ exec (.bind .sel port l) t3 = .next t4 ∧
      t4.blk.bind = t.blk.bind ∧ t4.blk.initstat = t.blk.initstat ∧ t.blk.code = 0#4

/-- ISREADY writes 0x01 or 0x00 to RESULT as INITSTAT is 0b111 or not, with status OK, and changes nothing else but CMD
(R108). -/
def Obligations.IsreadyReportsReadiness : Prop :=
  ∀ s : State, ∃ t, exec .isready s = .next t ∧ SameOutside s t ∧
    t.blk.result = (if s.blk.initstat = 0b111#3 then 0x01#8 else 0x00#8) ∧
    t.blk.code = 0#4 ∧ t.blk.busy = false ∧ SameSettings s.blk t.blk ∧ SameHidden s.blk t.blk

/-- In every state that meets the invariant, ISREADY returns 0x01 exactly when MOSI, CLK and SEL have non-null ports,
whatever the MISO binding holds (R25, R109). -/
def Obligations.ReadinessMeansNonNullPorts : Prop :=
  ∀ s t : State, s.Inv → exec .isready s = .next t →
    (t.blk.result = 0x01#8 ↔
      s.blk.bind.mosi.port ≠ 0#12 ∧ s.blk.bind.clk.port ≠ 0#12 ∧ s.blk.bind.sel.port ≠ 0#12) ∧
    (t.blk.result ≠ 0x01#8 → t.blk.result = 0x00#8)

/-- SETDELAY stores a positive operand in DELAY and otherwise leaves DELAY, with status OK either way, and changes
nothing else but CMD (R111). -/
def Obligations.SetdelayStoresPositiveTicks : Prop :=
  ∀ (s : State) (ticks : Ticks), ∃ t, exec (.setdelay ticks) s = .next t ∧ SameOutside s t ∧
    (1 ≤ ticks.toNat ∧ ticks.toNat ≤ 32767 → t.blk.delay = ticks) ∧
    (ticks.toNat = 0 ∨ 32768 ≤ ticks.toNat → t.blk.delay = s.blk.delay) ∧
    t.blk.initstat = s.blk.initstat ∧ t.blk.bind = s.blk.bind ∧ t.blk.result = s.blk.result ∧
    t.blk.code = 0#4 ∧ t.blk.busy = false ∧ SameHidden s.blk t.blk

/-! ## TRANSFER and CLEAR -/

/-- Acceptance of a TRANSFER or CLEAR of a ready block with a valid MISO binding: BUSY, CMD, the micro-operation list
of R155 with its counts, an empty accumulator, and nothing else (R31, R155, R206). -/
def Obligations.TransferLoadsItsList : Prop :=
  ∀ (s : State) (i : Instr) (val : Byte) (ord : BitOrder), IsTransfer i val ord →
    s.blk.initstat = 0b111#3 → ¬ (s.blk.bind.miso.pin ≠ 15#4 ∧ s.blk.bind.miso.port = 0#12) →
    ∃ t, exec i s = .next t ∧ SameOutside s t ∧ SameSettings s.blk t.blk ∧ t.blk.result = s.blk.result ∧
      t.blk.code = s.blk.code ∧ t.blk.busy = true ∧ t.blk.cmd = encode i ∧ t.blk.acc = 0x00#8 ∧ t.blk.biti = 0 ∧
      t.blk.holdLeft = 0 ∧
      (let b := s.blk.bind
       let mosi (c : Fin 8) : List MicroOp := if b.mosi.pin = 15#4 then [] else
         let level := match ord with
           | .msbFirst => val.getLsbD (7 - c.val)
           | .lsbFirst => val.getLsbD c.val
         [if level then .setBit b.mosi.port b.mosi.pin else .clearBit b.mosi.port b.mosi.pin]
       let miso (p : SamplePoint) : List MicroOp :=
         if b.miso.pin = 15#4 ∨ s.cfg.samplePoint ≠ p then [] else [.readBit b.miso.port b.miso.pin ord]
       let cycle (c : Fin 8) : List MicroEntry :=
         (mosi c ++ miso .beforePulse ++
           ([.setBit b.clk.port b.clk.pin, .delay s.blk.delay, .clearBit b.clk.port b.clk.pin,
             .delay s.blk.delay] : List MicroOp) ++ miso .afterPulse).map fun op => { cycle := c, op := op }
       t.blk.ops = cycle 0 ++ cycle 1 ++ cycle 2 ++ cycle 3 ++ cycle 4 ++ cycle 5 ++ cycle 6 ++ cycle 7) ∧
      t.blk.ops.length =
        8 * (4 + (if s.blk.bind.mosi.pin = 15#4 then 0 else 1) + (if s.blk.bind.miso.pin = 15#4 then 0 else 1)) ∧
      listSteps t.blk.ops = t.blk.ops.length + 16 * s.blk.delay.toNat + 1

/-- TRANSFER, CLEAR, TRIGGER and WRITECS of a block that is not ready, and TRANSFER and CLEAR with a MISO pin at the
null port, complete with INVALID_BINDING; nothing else changes but CMD, and no pin moves (R202, R203, R204). -/
def Obligations.InvalidBindingChangesOnlyStatus : Prop :=
  ∀ (s : State) (i : Instr),
    (((∃ val ord, IsTransfer i val ord) ∨ i = .trigger ∨ ∃ lvl, i = .writecs lvl) ∧ s.blk.initstat ≠ 0b111#3) ∨
    ((∃ val ord, IsTransfer i val ord) ∧ s.blk.bind.miso.pin ≠ 15#4 ∧ s.blk.bind.miso.port = 0#12) →
    ∃ t, exec i s = .next t ∧ SameOutside s t ∧ SameSettings s.blk t.blk ∧ t.blk.result = s.blk.result ∧
      t.blk.code = 3#4 ∧ t.blk.busy = false ∧ t.blk.ops = [] ∧ t.blk.holdLeft = 0 ∧
      t.blk.acc = s.blk.acc ∧ t.blk.biti = s.blk.biti

/-- Whatever the port environment answers, a TRANSFER or CLEAR that passes its checks performs its whole list and
completes with OK and its byte in RESULT: 0x00 when MISO is absent, and otherwise the eight bits read, the bit of cycle
c at position 7 - c MSB first and c LSB first (R152, R154, R155, R204, R205). -/
def Obligations.TransferCompletesWithTheBitsRead : Prop :=
  ∀ (s : State) (i : Instr) (val : Byte) (ord : BitOrder), IsTransfer i val ord → s.Inv →
    s.blk.busy = false → s.agenda = [] → s.answered = true →
    s.blk.initstat = 0b111#3 → ¬ (s.blk.bind.miso.pin ≠ 15#4 ∧ s.blk.bind.miso.port = 0#12) →
    ∃ t0 t evs, exec i s = .next t0 ∧ Steps (listSteps t0.blk.ops) t0 t ∧
      t.trace = s.trace ++ evs ∧ List.Forall₂ (fun (e : MicroEntry) ev => e.op.shows ev) t0.blk.ops evs ∧
      t.blk.busy = false ∧ t.blk.code = 0#4 ∧ SameSettings s.blk t.blk ∧ t.blk.ops = [] ∧ t.blk.holdLeft = 0 ∧
      t.cfg = s.cfg ∧ t.offered = s.offered ∧ t.agenda = [] ∧
      (∀ b : Nat, b ≠ s.blk.bind.clk.port.toNat → (s.blk.bind.mosi.pin ≠ 15#4 → b ≠ s.blk.bind.mosi.port.toNat) →
        t.ports.read b = s.ports.read b) ∧
      (s.blk.bind.miso.pin = 15#4 → readValues evs = [] ∧ t.blk.result = 0x00#8) ∧
      (s.blk.bind.miso.pin ≠ 15#4 → (readValues evs).length = 8 ∧
        ∀ c : Fin 8, t.blk.result.getLsbD (if ord = .msbFirst then 7 - c.val else c.val) =
          ((readValues evs).getD c.val 0x00#8).getLsbD s.blk.bind.miso.pin.toNat)

/-- The loopback law of R157: when the bit read in every cycle equals the bit driven in it, RESULT = VAL, for every
VAL, both orders and both sample points. -/
def Obligations.LoopbackReturnsTheByte : Prop :=
  ∀ (s : State) (val : Byte) (ord : BitOrder), s.Inv → s.blk.busy = false → s.agenda = [] → s.answered = true →
    s.blk.initstat = 0b111#3 → s.blk.bind.miso.pin ≠ 15#4 → s.blk.bind.miso.port ≠ 0#12 →
    ∃ t0 t evs, exec (.transfer val ord) s = .next t0 ∧ Steps (listSteps t0.blk.ops) t0 t ∧
      t.trace = s.trace ++ evs ∧ t.blk.busy = false ∧
      ((∀ c : Fin 8, ((readValues evs).getD c.val 0x00#8).getLsbD s.blk.bind.miso.pin.toNat =
          (match ord with
            | .msbFirst => val.getLsbD (7 - c.val)
            | .lsbFirst => val.getLsbD c.val)) →
        t.blk.result = val)

/-- MISO bound to MOSI's own pin, under plain registers, loops the byte back, when CLK has another pin (R157, and R241
for the premise on CLK: log entry 10). -/
def Obligations.SamePinLoopsBack : Prop :=
  ∀ (s : State) (val : Byte) (ord : BitOrder), s.Inv → s.blk.busy = false → s.Quiet →
    s.blk.initstat = 0b111#3 → s.blk.bind.mosi.pin ≠ 15#4 → s.blk.bind.miso = s.blk.bind.mosi →
    s.blk.bind.clk ≠ s.blk.bind.mosi →
    ∃ t0 t, exec (.transfer val ord) s = .next t0 ∧ Steps (listSteps t0.blk.ops) t0 t ∧ t.blk.busy = false ∧
      t.blk.code = 0#4 ∧ t.blk.result = val

/-- Pin levels after a successful TRANSFER or CLEAR, under plain registers: CLK is 0; MOSI, when present on a pin of
its own, holds the output bit of cycle 7; every other bit of every port, SEL's among them, is unchanged (R156, R160,
R186, and R241 for pins that two roles share: log entry 10). -/
def Obligations.PinLevelsAfterTransfer : Prop :=
  ∀ (s : State) (i : Instr) (val : Byte) (ord : BitOrder), IsTransfer i val ord → s.Inv → s.blk.busy = false →
    s.Quiet → s.blk.initstat = 0b111#3 → ¬ (s.blk.bind.miso.pin ≠ 15#4 ∧ s.blk.bind.miso.port = 0#12) →
    ∃ t0 t, exec i s = .next t0 ∧ Steps (listSteps t0.blk.ops) t0 t ∧ t.blk.busy = false ∧
      t.pinAt s.blk.bind.clk.port s.blk.bind.clk.pin = false ∧
      (s.blk.bind.mosi.pin ≠ 15#4 → s.blk.bind.mosi ≠ s.blk.bind.clk →
        t.pinAt s.blk.bind.mosi.port s.blk.bind.mosi.pin =
          (match ord with
            | .msbFirst => val.getLsbD 0
            | .lsbFirst => val.getLsbD 7)) ∧
      (∀ (a : PortAddr) (p : PinCode), p.toNat ≤ 7 → s.blk.bind.clk ≠ { port := a, pin := p } →
        s.blk.bind.mosi ≠ { port := a, pin := p } → t.pinAt a p = s.pinAt a p)

/-- The waveform law of R161, under plain registers and with MOSI, where present, on a pin of its own (log entry 10):
whenever the clock fall of cycle c heads what a TRANSFER or CLEAR has still to perform, the hold before it included (log
entry 20), CLK is 1, and MOSI, when present, holds the output bit of cycle c. -/
def Obligations.HighPhaseShowsTheBit : Prop :=
  ∀ (s : State) (i : Instr) (val : Byte) (ord : BitOrder), IsTransfer i val ord → s.Inv → s.blk.busy = false →
    s.Quiet → s.blk.initstat = 0b111#3 → ¬ (s.blk.bind.miso.pin ≠ 15#4 ∧ s.blk.bind.miso.port = 0#12) →
    s.blk.bind.mosi ≠ s.blk.bind.clk →
    ∃ t0, exec i s = .next t0 ∧
      ∀ (k : Nat) (u : State) (c : Fin 8) (rest : List MicroEntry), k < listSteps t0.blk.ops → Steps k t0 u →
        u.blk.ops = { cycle := c, op := .clearBit s.blk.bind.clk.port s.blk.bind.clk.pin } :: rest →
        u.pinAt s.blk.bind.clk.port s.blk.bind.clk.pin = true ∧
        (s.blk.bind.mosi.pin ≠ 15#4 →
          u.pinAt s.blk.bind.mosi.port s.blk.bind.mosi.pin =
            (match ord with
              | .msbFirst => val.getLsbD (7 - c.val)
              | .lsbFirst => val.getLsbD c.val))

/-- R158: with neither MOSI nor MISO present, TRANSFER performs exactly eight times SETBIT CLK, DELAY, CLEARBIT CLK,
DELAY, whatever VAL and ORD are, and sets RESULT = 0x00. -/
def Obligations.BareClockingIgnoresTheByte : Prop :=
  ∀ (s : State) (val : Byte) (ord : BitOrder), s.Inv → s.blk.busy = false → s.agenda = [] → s.answered = true →
    s.blk.initstat = 0b111#3 → s.blk.bind.mosi.pin = 15#4 → s.blk.bind.miso.pin = 15#4 →
    ∃ t0 t evs, exec (.transfer val ord) s = .next t0 ∧ Steps (33 + 16 * s.blk.delay.toNat) t0 t ∧
      t.trace = s.trace ++ evs ∧ t.blk.busy = false ∧ t.blk.code = 0#4 ∧ t.blk.result = 0x00#8 ∧
      List.Forall₂ MicroOp.shows
        (List.replicate 8 [MicroOp.setBit s.blk.bind.clk.port s.blk.bind.clk.pin, .delay s.blk.delay,
          .clearBit s.blk.bind.clk.port s.blk.bind.clk.pin, .delay s.blk.delay]).flatten evs

/-- R159: when MISO is absent, a successful TRANSFER performs no READBIT and sets RESULT = 0x00. -/
def Obligations.WriteOnlyTransferReturnsZero : Prop :=
  ∀ (s : State) (val : Byte) (ord : BitOrder), s.Inv → s.blk.busy = false → s.agenda = [] → s.answered = true →
    s.blk.initstat = 0b111#3 → s.blk.bind.miso.pin = 15#4 →
    ∃ t0 t evs, exec (.transfer val ord) s = .next t0 ∧
      (∀ e ∈ t0.blk.ops, ∀ a p o, e.op ≠ .readBit a p o) ∧
      Steps (listSteps t0.blk.ops) t0 t ∧ t.blk.busy = false ∧ t.blk.code = 0#4 ∧
      t.trace = s.trace ++ evs ∧ readValues evs = [] ∧ t.blk.result = 0x00#8

/-- R154: ACCUMULATE; where the eight sampled bits stand after all eight cycles; that each lands where outBit takes its
bit from; and that no bit shifted out under MSB_FIRST is ever 1. -/
def Obligations.AccumulationPlacesEachBit : Prop :=
  (∀ (acc : Byte) (s : Bool) (i : Fin 8),
    accumulate acc s i .msbFirst = (acc <<< 1) ||| (BitVec.ofBool s).setWidth 8 ∧
    accumulate acc s i .lsbFirst = acc ||| ((BitVec.ofBool s).setWidth 8 <<< i.val)) ∧
  (∀ (sampled : Fin 8 → Bool) (ord : BitOrder) (i : Fin 8),
    ([0, 1, 2, 3, 4, 5, 6, 7].foldl (fun acc (c : Fin 8) => accumulate acc (sampled c) c ord) 0x00#8).getLsbD
      (if ord = .msbFirst then 7 - i.val else i.val) = sampled i) ∧
  (∀ (val : Byte) (ord : BitOrder),
    [0, 1, 2, 3, 4, 5, 6, 7].foldl (fun acc (c : Fin 8) => accumulate acc (outBit val ord c) c ord) 0x00#8 = val) ∧
  (∀ (sampled : Fin 8 → Bool) (k : Fin 8),
    ((([0, 1, 2, 3, 4, 5, 6, 7] : List (Fin 8)).take k.val).foldl
      (fun acc c => accumulate acc (sampled c) c .msbFirst) 0x00#8).getLsbD 7 = false)

/-! ## TRIGGER and WRITECS -/

/-- R182: a successful TRIGGER performs exactly two port transactions and two holds of DELAY ticks, SEL raised, one hold,
SEL lowered, one hold before the block is idle again, whatever the port environment answers; under plain registers it
leaves SEL 0, having held it 1 between, and nothing else on any port changes. -/
def Obligations.TriggerPulsesSelect : Prop :=
  ∀ s : State, s.Inv → s.blk.busy = false → s.agenda = [] → s.answered = true → s.blk.initstat = 0b111#3 →
    ∃ t0 t evs, exec .trigger s = .next t0 ∧ Steps (2 * s.blk.delay.toNat + 5) t0 t ∧ t.trace = s.trace ++ evs ∧
      List.Forall₂ MicroOp.shows
        [.setBit s.blk.bind.sel.port s.blk.bind.sel.pin, .delay s.blk.delay,
          .clearBit s.blk.bind.sel.port s.blk.bind.sel.pin, .delay s.blk.delay] evs ∧
      (s.answers = [] →
        (let a := s.blk.bind.sel.port
         let mask : Byte := 0x01#8 <<< s.blk.bind.sel.pin.toNat
         let old := s.ports.read a.toNat
         evs = [.rmw a 0x00#8 mask (old ||| mask), .hold s.blk.delay,
           .rmw a mask 0x00#8 ((old ||| mask) &&& ~~~mask), .hold s.blk.delay]) ∧
        t.pinAt s.blk.bind.sel.port s.blk.bind.sel.pin = false ∧
        (∀ (a : PortAddr) (p : PinCode), p.toNat ≤ 7 → s.blk.bind.sel ≠ { port := a, pin := p } →
          t.pinAt a p = s.pinAt a p)) ∧
      t.blk.busy = false ∧ t.blk.code = 0#4 ∧ t.blk.ops = [] ∧ t.blk.holdLeft = 0 ∧
      t.blk.result = s.blk.result ∧ SameSettings s.blk t.blk ∧ t.offered = s.offered ∧ t.cfg = s.cfg ∧
      (∀ b : Nat, b ≠ s.blk.bind.sel.port.toNat → t.ports.read b = s.ports.read b)

/-- R185: a successful WRITECS performs exactly one port transaction and no hold, whatever the port environment answers,
and under plain registers leaves SEL equal to LVL and every other bit unchanged. -/
def Obligations.WritecsDrivesSelect : Prop :=
  ∀ (s : State) (lvl : Bool), s.Inv → s.blk.busy = false → s.agenda = [] → s.answered = true →
    s.blk.initstat = 0b111#3 →
    ∃ t0 t ev, exec (.writecs lvl) s = .next t0 ∧ Steps 2 t0 t ∧ t.trace = s.trace ++ [ev] ∧
      (if lvl then MicroOp.setBit s.blk.bind.sel.port s.blk.bind.sel.pin
        else .clearBit s.blk.bind.sel.port s.blk.bind.sel.pin).shows ev ∧
      (s.answers = [] → t.pinAt s.blk.bind.sel.port s.blk.bind.sel.pin = lvl ∧
        (∀ (a : PortAddr) (p : PinCode), p.toNat ≤ 7 → s.blk.bind.sel ≠ { port := a, pin := p } →
          t.pinAt a p = s.pinAt a p)) ∧
      t.blk.busy = false ∧ t.blk.code = 0#4 ∧ t.blk.ops = [] ∧ t.blk.holdLeft = 0 ∧
      t.blk.result = s.blk.result ∧ SameSettings s.blk t.blk ∧ t.offered = s.offered ∧ t.cfg = s.cfg ∧
      (∀ b : Nat, b ≠ s.blk.bind.sel.port.toNat → t.ports.read b = s.ports.read b)

/-! ## Micro-operations -/

/-- R132 and R134: after SETBIT register a holds old | (1 << i), after CLEARBIT old & ~(1 << i), under plain
registers; every other bit, every other register and the block's registers are unchanged, and the one transaction is
on the trace. -/
def Obligations.SetAndClearDriveOneBit : Prop :=
  ∀ (s : State) (c : Fin 8) (op : MicroOp) (rest : List MicroEntry) (a : PortAddr) (i : PinCode),
    s.ports.wf = true → s.Quiet → s.blk.busy = true → s.blk.holdLeft = 0 →
    s.blk.ops = { cycle := c, op := op } :: rest → (op = .setBit a i ∨ op = .clearBit a i) → a ≠ 0#12 → i.toNat ≤ 7 →
    ∃ t ev, step s = .next t ∧
      (op = .setBit a i → t.ports.read a.toNat = s.ports.read a.toNat ||| (0x01#8 <<< i.toNat)) ∧
      (op = .clearBit a i → t.ports.read a.toNat = s.ports.read a.toNat &&& ~~~(0x01#8 <<< i.toNat)) ∧
      (∀ j : PinCode, j.toNat ≤ 7 → j ≠ i → t.pinAt a j = s.pinAt a j) ∧
      (∀ b : Nat, b ≠ a.toNat → t.ports.read b = s.ports.read b) ∧
      t.trace = s.trace ++ [ev] ∧ op.shows ev ∧ t.blk.ops = rest ∧ t.blk.busy = true ∧ t.blk.holdLeft = 0 ∧
      t.blk.acc = s.blk.acc ∧ t.blk.cmd = s.blk.cmd ∧ t.blk.code = s.blk.code ∧ t.blk.result = s.blk.result ∧
      SameSettings s.blk t.blk ∧ t.offered = s.offered ∧ t.cfg = s.cfg

/-- R136: READBIT makes exactly one PortRead, does not write the port, and does not change the block's registers: only
the hidden accumulator takes the bit, from the register or from the value the environment supplies. -/
def Obligations.ReadBitReadsOnce : Prop :=
  ∀ (s : State) (c : Fin 8) (rest : List MicroEntry) (a : PortAddr) (i : PinCode) (ord : BitOrder) (v : Byte),
    s.agenda = [] → s.blk.busy = true → s.blk.holdLeft = 0 →
    s.blk.ops = { cycle := c, op := .readBit a i ord } :: rest → a ≠ 0#12 → i.toNat ≤ 7 →
    ((s.answers = [] ∧ v = s.ports.read a.toNat) ∨ (∃ r, s.answers = .supply v :: r)) →
    ∃ t, step s = .next t ∧ t.trace = s.trace ++ [.read a v] ∧ t.ports = s.ports ∧
      t.blk.acc = accumulate s.blk.acc (v.getLsbD i.toNat) c ord ∧
      t.blk.ops = rest ∧ t.blk.busy = true ∧ t.blk.code = s.blk.code ∧ t.blk.result = s.blk.result ∧
      SameSettings s.blk t.blk ∧ t.blk.holdLeft = 0 ∧ t.blk.cmd = s.blk.cmd ∧ t.offered = s.offered ∧ t.cfg = s.cfg

/-- A read-modify-write works on the value the environment supplies inside the transaction, whatever the register
held before (R55, R57, R242). -/
def Obligations.RmwUsesTheSuppliedValue : Prop :=
  ∀ (s : State) (c : Fin 8) (op : MicroOp) (rest : List MicroEntry) (a : PortAddr) (i : PinCode) (v : Byte)
    (more : List BusAnswer),
    s.ports.wf = true → s.agenda = [] → s.answers = .supply v :: more → s.blk.busy = true → s.blk.holdLeft = 0 →
    s.blk.ops = { cycle := c, op := op } :: rest → (op = .setBit a i ∨ op = .clearBit a i) → a ≠ 0#12 → i.toNat ≤ 7 →
    ∃ t, step s = .next t ∧ t.answers = more ∧
      (op = .setBit a i → t.ports.read a.toNat = v ||| (0x01#8 <<< i.toNat)) ∧
      (op = .clearBit a i → t.ports.read a.toNat = v &&& ~~~(0x01#8 <<< i.toNat)) ∧
      (∀ b : Nat, b ≠ a.toNat → t.ports.read b = s.ports.read b)

/-- A DELAY takes its start and then exactly its ticks, HOLDLEFT counting down to 0, with no port transaction; it is
never skipped or shortened (R139, R141). That the DELAY leaves OPS at its start is the model's choice (log entry 20). -/
def Obligations.HoldWaitsItsTicks : Prop :=
  ∀ (s : State) (c : Fin 8) (n : Ticks) (rest : List MicroEntry) (k : Nat),
    s.agenda = [] → s.blk.busy = true → s.blk.holdLeft = 0 → s.blk.ops = { cycle := c, op := .delay n } :: rest →
    k ≤ n.toNat →
    ∃ t, Steps (1 + k) s t ∧ t.blk.holdLeft = n.toNat - k ∧ t.blk.ops = rest ∧ t.trace = s.trace ++ [.hold n] ∧
      t.ports = s.ports ∧ t.blk.busy = true ∧ t.blk.acc = s.blk.acc ∧ t.blk.cmd = s.blk.cmd ∧
      t.blk.code = s.blk.code ∧ t.blk.result = s.blk.result ∧ SameSettings s.blk t.blk ∧
      t.answers = s.answers ∧ t.offered = s.offered ∧ t.agenda = [] ∧ t.cfg = s.cfg

/-- A port bus that never answers leaves the block stuck in the middle of its command, for any number of steps (R247). -/
def Obligations.SilentBusLeavesTheBlockStuck : Prop :=
  ∀ (s : State) (e : MicroEntry) (rest : List MicroEntry) (more : List BusAnswer), s.Inv → s.agenda = [] →
    s.answers = .silent :: more → s.blk.busy = true → s.blk.holdLeft = 0 → s.blk.ops = e :: rest →
    (∀ n, e.op ≠ .delay n) → ∀ n, Steps n s s

/-! ## The whole machine -/

/-- The invariant holds at reset. -/
def Obligations.ResetMeetsTheInvariant : Prop := State.reset.Inv

/-- Every step keeps the invariant: CODE 0..3, DELAY 1..32767, INITSTAT the non-null ports, legal bindings, an idle
block with no micro-operation, legal micro-operations, HOLDLEFT at most DELAY, canonical port registers (R22, R24,
R25, R26, R30, R31, R138). -/
def Obligations.StepKeepsTheInvariant : Prop := ∀ s t : State, s.Inv → step s = .next t → t.Inv

/-- No step from a state that meets the invariant faults or is refused: no micro-operation names the null port or a pin
index above 7 (R51, R138, R204). -/
def Obligations.StepNeverStops : Prop := ∀ s : State, s.Inv → ∃ t, step s = .next t

/-- Every run from a state that meets the invariant is safe: no number of steps ends in a fault (R51, R138). -/
def Obligations.EveryRunIsSafe : Prop := ∀ s : State, s.Inv → s.Safe

/-- Every command ends in a bounded number of block steps: from an idle block that accepts any command, one step, or the
steps of its list, of at most 32 transactions and 16 holds, lead to an idle block again (R204, R247). -/
def Obligations.EveryCommandEnds : Prop :=
  ∀ (s : State) (i : Instr), s.Inv → s.blk.busy = false → s.agenda = [] → s.answered = true →
    ∃ t0, exec i s = .next t0 ∧
      (t0.blk.busy = false ∨
        ∃ n t, n ≤ 32 + 16 * (1 + s.blk.delay.toNat) + 1 ∧ Steps n t0 t ∧ t.blk.busy = false ∧ t.blk.code = 0#4 ∧
          t.offered = s.offered)

/-- R230 and R231: a reset turn, in any state, puts every piece of block state to its reset value in one step, and
performs no port-bus transaction and changes no port register; a word offered stays offered (R232). -/
def Obligations.ResetClearsTheBlockOnly : Prop :=
  ∀ (s : State) (rest : List Turn), s.agenda = .hostReset :: rest →
    ∃ t, step s = .next t ∧
      hostRead 0#4 t = 0x00000000#32 ∧ hostRead 1#4 t = 0x00000000#32 ∧ hostRead 2#4 t = 0x00000001#32 ∧
      hostRead 3#4 t = 0x00000000#32 ∧ hostRead 4#4 t = 0x000000F0#32 ∧ hostRead 5#4 t = 0x000000F0#32 ∧
      hostRead 6#4 t = 0x000000F0#32 ∧ hostRead 7#4 t = 0x000000F0#32 ∧ t.blk.ops = [] ∧ t.blk.holdLeft = 0 ∧
      SameOutside { s with agenda := rest } t

/-- What HOSTREAD returns, field by field: the reserved bits and registers 8..15 read as zero (R22..R26, R60). -/
def Obligations.HostReadLayout : Prop :=
  ∀ s : State,
    (hostRead 0#4 s).toNat = s.blk.code.toNat + 16 * s.blk.busy.toNat ∧
    (hostRead 1#4 s).toNat = s.blk.result.toNat ∧
    (hostRead 2#4 s).toNat = s.blk.delay.toNat ∧
    (hostRead 3#4 s).toNat = s.blk.initstat.toNat ∧
    (hostRead 4#4 s).toNat = s.blk.bind.mosi.port.toNat * 2 ^ 20 + s.blk.bind.mosi.pin.toNat * 16 ∧
    (hostRead 5#4 s).toNat = s.blk.bind.miso.port.toNat * 2 ^ 20 + s.blk.bind.miso.pin.toNat * 16 ∧
    (hostRead 6#4 s).toNat = s.blk.bind.clk.port.toNat * 2 ^ 20 + s.blk.bind.clk.pin.toNat * 16 ∧
    (hostRead 7#4 s).toNat = s.blk.bind.sel.port.toNat * 2 ^ 20 + s.blk.bind.sel.pin.toNat * 16 ∧
    (∀ n : BitVec 4, 8 ≤ n.toNat → hostRead n s = 0x00000000#32)

/-- R103: a binding changes in a step only by an accepted, successful BIND of the same role or INIT, or by reset. -/
def Obligations.OnlyBindInitAndResetWriteBindings : Prop :=
  ∀ (s t : State) (r : Role), step s = .next t → t.blk.bind.get r ≠ s.blk.bind.get r →
    (∃ rest, s.agenda = .hostReset :: rest) ∨
    ((s.agenda = [] ∨ ∃ rest, s.agenda = .sequencer :: rest) ∧ s.blk.busy = false ∧ t.blk.code = 0#4 ∧
      ∃ w rest, s.offered = w :: rest ∧
        ((∃ port pin, decodeWord w = .ok (.bind r port pin) ∧ t.blk.bind.get r = { port := port, pin := pin }) ∨
         (∃ port m n c l, decodeWord w = .ok (.init port m n c l) ∧ (t.blk.bind.get r).port = port)))

/-- RESULT changes in a step only by ISREADY, by the completion of a TRANSFER or CLEAR, which writes ACC, or by reset
(R23). -/
def Obligations.OnlyTransferIsreadyAndResetWriteResult : Prop :=
  ∀ s t : State, step s = .next t → t.blk.result ≠ s.blk.result →
    (∃ rest, s.agenda = .hostReset :: rest) ∨
    ((s.agenda = [] ∨ ∃ rest, s.agenda = .sequencer :: rest) ∧ t.blk.code = 0#4 ∧ t.blk.busy = false ∧
      ((s.blk.busy = false ∧ ∃ w rest, s.offered = w :: rest ∧ decodeWord w = .ok .isready) ∨
       (s.blk.busy = true ∧ s.blk.ops = [] ∧ s.blk.holdLeft = 0 ∧ t.blk.result = s.blk.acc ∧
        ∃ i val ord, IsTransfer i val ord ∧ decodeWord s.blk.cmd = .ok i)))

/-- DELAY changes in a step only by SETDELAY with a positive operand, or by reset (R24, R112). -/
def Obligations.OnlySetdelayAndResetWriteDelay : Prop :=
  ∀ s t : State, step s = .next t → t.blk.delay ≠ s.blk.delay →
    (∃ rest, s.agenda = .hostReset :: rest) ∨
    ((s.agenda = [] ∨ ∃ rest, s.agenda = .sequencer :: rest) ∧ s.blk.busy = false ∧
      ∃ w rest ticks, s.offered = w :: rest ∧ decodeWord w = .ok (.setdelay ticks) ∧
        1 ≤ ticks.toNat ∧ ticks.toNat ≤ 32767 ∧ t.blk.delay = ticks)

/-- While a command goes on running, CODE, RESULT, DELAY, INITSTAT and BIND[*] keep their values: a host read sees the
old ones until completion (R31, R60, R205). -/
def Obligations.RunningCommandKeepsTheRegisters : Prop :=
  ∀ s t : State, s.blk.busy = true → t.blk.busy = true → step s = .next t →
    t.blk.code = s.blk.code ∧ t.blk.result = s.blk.result ∧ SameSettings s.blk t.blk ∧ t.blk.cmd = s.blk.cmd

/-- What port reads return does not steer the block: two running blocks that differ only in their accumulators, their
port registers and the values their buses supply stay so in every step, up to ACC and the RESULT it becomes (R31,
R162, R208). -/
def Obligations.PortReadsDoNotSteer : Prop :=
  ∀ s s' t t' : State, s.blk.busy = true → s.agenda = [] → s'.agenda = [] → s.answered = true → s'.answered = true →
    s'.blk = { s.blk with acc := s'.blk.acc } → step s = .next t → step s' = .next t' →
    t'.blk = { t.blk with acc := t'.blk.acc, result := t'.blk.result } ∧
      (t.blk.busy = true → t'.blk.result = t.blk.result)

/-- Whatever turns the other agents take and whatever the bus answers, short of reset, a running command's list goes on in
order: after any number of steps the block has shown a first part of the list and has the rest still to perform, or it
has shown all of it (R31, R64, R162, R208). A hold is shown, and leaves the list, at its start (log entries 6, 20). -/
def Obligations.NoScheduleCutsACommandShort : Prop :=
  ∀ (n : Nat) (s t : State), s.blk.busy = true → (∀ turn ∈ s.agenda, turn ≠ .hostReset) → Steps n s t →
    ∃ pre evs more, t.trace = s.trace ++ evs ++ more ∧
      List.Forall₂ (fun (e : MicroEntry) ev => e.op.shows ev) pre evs ∧
      (pre = s.blk.ops ∨
        (more = [] ∧ s.blk.ops = pre ++ t.blk.ops ∧ t.blk.busy = true ∧ t.blk.cmd = s.blk.cmd ∧
          t.blk.code = s.blk.code ∧ t.blk.result = s.blk.result ∧ SameSettings s.blk t.blk))

/-- A host's offer, a stall, and another agent's transaction at a port that is not null change no block state: the
transaction changes one port register, the offer adds one word behind those offered, the stall nothing (R9, R64, R206,
R208, R240). A reset turn rewrites the block: ResetClearsTheBlockOnly. -/
def Obligations.OffersWritesAndStallsKeepTheBlock : Prop :=
  ∀ (s : State) (rest : List Turn),
    (∀ a clr set, s.ports.wf = true → s.agenda = .envWrite a clr set :: rest → a ≠ 0#12 →
      ∃ t, step s = .next t ∧ t.blk = s.blk ∧
        t.ports.read a.toNat = (s.ports.read a.toNat &&& ~~~clr) ||| set ∧
        (∀ b, b ≠ a.toNat → t.ports.read b = s.ports.read b) ∧ t.offered = s.offered ∧ t.agenda = rest ∧
        t.answers = s.answers ∧ t.trace = s.trace ∧ t.cfg = s.cfg) ∧
    (∀ w, s.agenda = .hostOffer w :: rest →
      ∃ t, step s = .next t ∧ t.blk = s.blk ∧
        SameOutside { s with agenda := rest, offered := s.offered ++ [w] } t) ∧
    (s.agenda = .stall :: rest → ∃ t, step s = .next t ∧ t.blk = s.blk ∧ SameOutside { s with agenda := rest } t)
end

