-- ==== Sys2Proof/Laws/Decode.lean ====
section
/-! SUPPORT. The bits of an encoded word, and what selects its row of the opcode map (rules R71..R82). -/

namespace Sys2Proof

@[simp] theorem role_ofCode_code (r : Role) : Role.ofCode r.code = r := by cases r <;> decide

@[simp] theorem role_code_ofCode (v : BitVec 2) : (Role.ofCode v).code = v := by revert v; decide

@[simp] theorem order_ofBit_bit (o : BitOrder) : BitOrder.ofBit o.bit = o := by cases o <;> decide

@[simp] theorem order_bit_ofBit (v : BitVec 1) : (BitOrder.ofBit v).bit = v := by revert v; decide

@[simp] theorem opcode_ofBits_bits (k : Opcode) : Opcode.ofBits k.bits = some k := by cases k <;> decide

/-- The bits of a BIND word (R73). -/
theorem encode_bind_bit (r : Role) (a : PortAddr) (p : PinCode) (i : Nat) :
    (encode (.bind r a p)).getLsbD i = (a ++ 0#10 ++ r.code ++ p ++ 1#4).getLsbD i := rfl

/-- The bits of an INIT word (R74). -/
theorem encode_init_bit (a : PortAddr) (m n c l : PinCode) (i : Nat) :
    (encode (.init a m n c l)).getLsbD i = (a ++ l ++ c ++ n ++ m ++ 2#4).getLsbD i := rfl

/-- The bits of a SETDELAY word (R77). -/
theorem encode_setdelay_bit (t : Ticks) (i : Nat) :
    (encode (.setdelay t)).getLsbD i = (t ++ 0#12 ++ 4#4).getLsbD i := rfl

/-- The bits of a TRANSFER word (R78). -/
theorem encode_transfer_bit (v : Byte) (o : BitOrder) (i : Nat) :
    (encode (.transfer v o)).getLsbD i = (0#16 ++ v ++ 0#3 ++ o.bit ++ 5#4).getLsbD i := rfl

/-- The bits of a WRITECS word (R79). -/
theorem encode_writecs_bit (l : Bool) (i : Nat) :
    (encode (.writecs l)).getLsbD i = (0#27 ++ BitVec.ofBool l ++ 7#4).getLsbD i := rfl

/-- The word of a command is the word of its well-formed spelling (R86). -/
theorem encode_canonical (i : Instr) : encode i.canonical = encode i := by
  unfold Instr.canonical
  split
  · rfl
  · next h =>
    cases i <;> simp_all [Instr.wellFormed]
    decide

/-- The well-formed spelling is well formed. -/
theorem canonical_wellFormed (i : Instr) : i.canonical.wellFormed = true := by
  unfold Instr.canonical
  split
  · assumption
  · rfl

/-- A word that matches a row has that row's OPC (R81). -/
theorem opc_of_row (w : Word) (k : Opcode) (h : w &&& k.mask = k.pattern) : fieldOpc w = k.bits := by
  apply BitVec.eq_of_getLsbD_eq
  intro i hi
  have hb := congrArg (·.getLsbD i) h
  simp only [BitVec.getLsbD_and] at hb
  simp only [fieldOpc, BitVec.getLsbD_extractLsb']
  revert hb
  cases k <;> interval_cases i <;> simp [Opcode.mask, Opcode.pattern, Opcode.bits]

/-- A word that matches a row decodes to that row's command (R82). -/
theorem decodeWord_of_row (w : Word) (k : Opcode) (h : w &&& k.mask = k.pattern) :
    decodeWord w = .ok (k.command w) := by
  unfold decodeWord
  rw [opc_of_row w k h, opcode_ofBits_bits]
  simp [h]

/-- A word that decodes matches the row of its command (R82). -/
theorem row_of_decodeWord (w : Word) (i : Instr) (h : decodeWord w = .ok i) :
    ∃ k : Opcode, w &&& k.mask = k.pattern ∧ i = k.command w := by
  unfold decodeWord at h
  split at h
  · cases h
  · next k _ =>
    split at h
    · next hk => exact ⟨k, hk, (Except.ok.inj h).symm⟩
    · cases h

end Sys2Proof
end

