-- ==== Sys2Proof/Laws/State.lean ====
section
/-! SUPPORT. One lemma per field per update of the state, so that no proof unfolds a record update. -/

namespace Sys2Proof.Machine

@[simp] theorem withBlk_cfg (s : State) (b : SeqState) : (s.withBlk b).cfg = s.cfg := rfl
@[simp] theorem withBlk_blk (s : State) (b : SeqState) : (s.withBlk b).blk = b := rfl
@[simp] theorem withBlk_ports (s : State) (b : SeqState) : (s.withBlk b).ports = s.ports := rfl
@[simp] theorem withBlk_offered (s : State) (b : SeqState) : (s.withBlk b).offered = s.offered := rfl
@[simp] theorem withBlk_agenda (s : State) (b : SeqState) : (s.withBlk b).agenda = s.agenda := rfl
@[simp] theorem withBlk_answers (s : State) (b : SeqState) : (s.withBlk b).answers = s.answers := rfl
@[simp] theorem withBlk_trace (s : State) (b : SeqState) : (s.withBlk b).trace = s.trace := rfl
@[simp] theorem withBlk_withBlk (s : State) (b c : SeqState) : (s.withBlk b).withBlk c = s.withBlk c := rfl
@[simp] theorem withBlk_self (s : State) : s.withBlk s.blk = s := rfl

@[simp] theorem accept_code (b : SeqState) (w : Word) : (b.accept w).code = b.code := rfl
@[simp] theorem accept_busy (b : SeqState) (w : Word) : (b.accept w).busy = true := rfl
@[simp] theorem accept_result (b : SeqState) (w : Word) : (b.accept w).result = b.result := rfl
@[simp] theorem accept_delay (b : SeqState) (w : Word) : (b.accept w).delay = b.delay := rfl
@[simp] theorem accept_initstat (b : SeqState) (w : Word) : (b.accept w).initstat = b.initstat := rfl
@[simp] theorem accept_bind (b : SeqState) (w : Word) : (b.accept w).bind = b.bind := rfl
@[simp] theorem accept_cmd (b : SeqState) (w : Word) : (b.accept w).cmd = w := rfl
@[simp] theorem accept_ops (b : SeqState) (w : Word) : (b.accept w).ops = b.ops := rfl
@[simp] theorem accept_acc (b : SeqState) (w : Word) : (b.accept w).acc = b.acc := rfl
@[simp] theorem accept_biti (b : SeqState) (w : Word) : (b.accept w).biti = b.biti := rfl
@[simp] theorem accept_holdLeft (b : SeqState) (w : Word) : (b.accept w).holdLeft = b.holdLeft := rfl
@[simp] theorem accept_ready (b : SeqState) (w : Word) : (b.accept w).ready = b.ready := rfl
@[simp] theorem accept_mosiPresent (b : SeqState) (w : Word) : (b.accept w).mosiPresent = b.mosiPresent := rfl
@[simp] theorem accept_misoPresent (b : SeqState) (w : Word) : (b.accept w).misoPresent = b.misoPresent := rfl
@[simp] theorem accept_misoInvalid (b : SeqState) (w : Word) : (b.accept w).misoInvalid = b.misoInvalid := rfl

@[simp] theorem raise_code (b : SeqState) (st : Status) : (b.raise st).code = st.code := rfl
@[simp] theorem raise_busy (b : SeqState) (st : Status) : (b.raise st).busy = false := rfl
@[simp] theorem raise_result (b : SeqState) (st : Status) : (b.raise st).result = b.result := rfl
@[simp] theorem raise_delay (b : SeqState) (st : Status) : (b.raise st).delay = b.delay := rfl
@[simp] theorem raise_initstat (b : SeqState) (st : Status) : (b.raise st).initstat = b.initstat := rfl
@[simp] theorem raise_bind (b : SeqState) (st : Status) : (b.raise st).bind = b.bind := rfl
@[simp] theorem raise_cmd (b : SeqState) (st : Status) : (b.raise st).cmd = b.cmd := rfl
@[simp] theorem raise_ops (b : SeqState) (st : Status) : (b.raise st).ops = [] := rfl
@[simp] theorem raise_acc (b : SeqState) (st : Status) : (b.raise st).acc = b.acc := rfl
@[simp] theorem raise_biti (b : SeqState) (st : Status) : (b.raise st).biti = b.biti := rfl
@[simp] theorem raise_holdLeft (b : SeqState) (st : Status) : (b.raise st).holdLeft = 0 := rfl

@[simp] theorem complete_code (b : SeqState) : b.complete.code = 0#4 := rfl
@[simp] theorem complete_busy (b : SeqState) : b.complete.busy = false := rfl
@[simp] theorem complete_result (b : SeqState) : b.complete.result = b.result := rfl
@[simp] theorem complete_delay (b : SeqState) : b.complete.delay = b.delay := rfl
@[simp] theorem complete_initstat (b : SeqState) : b.complete.initstat = b.initstat := rfl
@[simp] theorem complete_bind (b : SeqState) : b.complete.bind = b.bind := rfl
@[simp] theorem complete_cmd (b : SeqState) : b.complete.cmd = b.cmd := rfl
@[simp] theorem complete_ops (b : SeqState) : b.complete.ops = b.ops := rfl
@[simp] theorem complete_acc (b : SeqState) : b.complete.acc = b.acc := rfl
@[simp] theorem complete_biti (b : SeqState) : b.complete.biti = b.biti := rfl
@[simp] theorem complete_holdLeft (b : SeqState) : b.complete.holdLeft = b.holdLeft := rfl

@[simp] theorem load_code (b : SeqState) (l : List MicroEntry) : (b.load l).code = b.code := rfl
@[simp] theorem load_busy (b : SeqState) (l : List MicroEntry) : (b.load l).busy = b.busy := rfl
@[simp] theorem load_result (b : SeqState) (l : List MicroEntry) : (b.load l).result = b.result := rfl
@[simp] theorem load_delay (b : SeqState) (l : List MicroEntry) : (b.load l).delay = b.delay := rfl
@[simp] theorem load_initstat (b : SeqState) (l : List MicroEntry) : (b.load l).initstat = b.initstat := rfl
@[simp] theorem load_bind (b : SeqState) (l : List MicroEntry) : (b.load l).bind = b.bind := rfl
@[simp] theorem load_cmd (b : SeqState) (l : List MicroEntry) : (b.load l).cmd = b.cmd := rfl
@[simp] theorem load_ops (b : SeqState) (l : List MicroEntry) : (b.load l).ops = l := rfl
@[simp] theorem load_acc (b : SeqState) (l : List MicroEntry) : (b.load l).acc = 0#8 := rfl
@[simp] theorem load_biti (b : SeqState) (l : List MicroEntry) : (b.load l).biti = headCycle l 0 := rfl
@[simp] theorem load_holdLeft (b : SeqState) (l : List MicroEntry) : (b.load l).holdLeft = 0 := rfl

@[simp] theorem advance_code (b : SeqState) (l : List MicroEntry) : (b.advance l).code = b.code := rfl
@[simp] theorem advance_busy (b : SeqState) (l : List MicroEntry) : (b.advance l).busy = b.busy := rfl
@[simp] theorem advance_result (b : SeqState) (l : List MicroEntry) : (b.advance l).result = b.result := rfl
@[simp] theorem advance_delay (b : SeqState) (l : List MicroEntry) : (b.advance l).delay = b.delay := rfl
@[simp] theorem advance_initstat (b : SeqState) (l : List MicroEntry) : (b.advance l).initstat = b.initstat := rfl
@[simp] theorem advance_bind (b : SeqState) (l : List MicroEntry) : (b.advance l).bind = b.bind := rfl
@[simp] theorem advance_cmd (b : SeqState) (l : List MicroEntry) : (b.advance l).cmd = b.cmd := rfl
@[simp] theorem advance_ops (b : SeqState) (l : List MicroEntry) : (b.advance l).ops = l := rfl
@[simp] theorem advance_acc (b : SeqState) (l : List MicroEntry) : (b.advance l).acc = b.acc := rfl
@[simp] theorem advance_biti (b : SeqState) (l : List MicroEntry) : (b.advance l).biti = headCycle l b.biti := rfl
@[simp] theorem advance_holdLeft (b : SeqState) (l : List MicroEntry) : (b.advance l).holdLeft = b.holdLeft := rfl

@[simp] theorem finish_code (b : SeqState) : b.finish.code = 0#4 := by unfold SeqState.finish; split <;> rfl
@[simp] theorem finish_busy (b : SeqState) : b.finish.busy = false := by unfold SeqState.finish; split <;> rfl
@[simp] theorem finish_result (b : SeqState) :
    b.finish.result = if cmdReturnsAcc b.cmd then b.acc else b.result := by
  unfold SeqState.finish; split <;> simp_all
@[simp] theorem finish_delay (b : SeqState) : b.finish.delay = b.delay := by unfold SeqState.finish; split <;> rfl
@[simp] theorem finish_initstat (b : SeqState) : b.finish.initstat = b.initstat := by
  unfold SeqState.finish; split <;> rfl
@[simp] theorem finish_bind (b : SeqState) : b.finish.bind = b.bind := by unfold SeqState.finish; split <;> rfl
@[simp] theorem finish_cmd (b : SeqState) : b.finish.cmd = b.cmd := by unfold SeqState.finish; split <;> rfl
@[simp] theorem finish_ops (b : SeqState) : b.finish.ops = b.ops := by unfold SeqState.finish; split <;> rfl
@[simp] theorem finish_acc (b : SeqState) : b.finish.acc = b.acc := by unfold SeqState.finish; split <;> rfl
@[simp] theorem finish_biti (b : SeqState) : b.finish.biti = b.biti := by unfold SeqState.finish; split <;> rfl
@[simp] theorem finish_holdLeft (b : SeqState) : b.finish.holdLeft = b.holdLeft := by
  unfold SeqState.finish; split <;> rfl

@[simp] theorem record_code (b : SeqState) (r : Role) (a : PortAddr) (p : PinCode) :
    (b.recordBinding r a p).code = b.code := rfl
@[simp] theorem record_busy (b : SeqState) (r : Role) (a : PortAddr) (p : PinCode) :
    (b.recordBinding r a p).busy = b.busy := rfl
@[simp] theorem record_result (b : SeqState) (r : Role) (a : PortAddr) (p : PinCode) :
    (b.recordBinding r a p).result = b.result := rfl
@[simp] theorem record_delay (b : SeqState) (r : Role) (a : PortAddr) (p : PinCode) :
    (b.recordBinding r a p).delay = b.delay := rfl
@[simp] theorem record_initstat (b : SeqState) (r : Role) (a : PortAddr) (p : PinCode) :
    (b.recordBinding r a p).initstat = initstatAfterBind b.initstat r a := rfl
@[simp] theorem record_bind (b : SeqState) (r : Role) (a : PortAddr) (p : PinCode) :
    (b.recordBinding r a p).bind = b.bind.set r { port := a, pin := p } := rfl
@[simp] theorem record_cmd (b : SeqState) (r : Role) (a : PortAddr) (p : PinCode) :
    (b.recordBinding r a p).cmd = b.cmd := rfl
@[simp] theorem record_ops (b : SeqState) (r : Role) (a : PortAddr) (p : PinCode) :
    (b.recordBinding r a p).ops = b.ops := rfl
@[simp] theorem record_acc (b : SeqState) (r : Role) (a : PortAddr) (p : PinCode) :
    (b.recordBinding r a p).acc = b.acc := rfl
@[simp] theorem record_biti (b : SeqState) (r : Role) (a : PortAddr) (p : PinCode) :
    (b.recordBinding r a p).biti = b.biti := rfl
@[simp] theorem record_holdLeft (b : SeqState) (r : Role) (a : PortAddr) (p : PinCode) :
    (b.recordBinding r a p).holdLeft = b.holdLeft := rfl

/-- Writing a role's binding and reading it back gives what was written (R27). -/
@[simp] theorem bindings_get_set_same (b : Bindings) (r : Role) (v : Binding) : (b.set r v).get r = v := by
  cases r <;> rfl

/-- Writing a role's binding leaves the other roles' (R27). -/
theorem bindings_get_set_other (b : Bindings) (r q : Role) (v : Binding) (h : q ≠ r) :
    (b.set r v).get q = b.get q := by
  cases r <;> cases q <;> first | rfl | exact absurd rfl h

/-- Two binding tables that agree on every role are equal. -/
theorem bindings_eq_of_get (b c : Bindings) (h : ∀ r, b.get r = c.get r) : b = c := by
  cases b; cases c
  simpa [Bindings.get] using ⟨h .mosi, h .miso, h .clk, h .sel⟩

end Sys2Proof.Machine
end

