-- ==== Sys2Proof/Laws/Memory.lean ====
section
/-! SUPPORT. The port registers (rules R50, R55): read after write, and the canonical form every operation keeps. -/

namespace Sys2Proof.Machine

@[simp] theorem read_nil (a : Nat) : Memory.read [] a = Memory.unlisted := rfl

/-- A canonical list is canonical from any lower address. -/
theorem wfFrom_mono (m : Memory) (lo lo' : Nat) (h : m.wfFrom lo) (hle : lo' ≤ lo) : m.wfFrom lo' := by
  cases m with
  | nil => rfl
  | cons c m =>
    simp only [Memory.wfFrom, Bool.and_eq_true, decide_eq_true_eq] at h ⊢
    exact ⟨⟨⟨by omega, h.1.1.2⟩, h.1.2⟩, h.2⟩

/-- A canonical list lists nothing below the address it starts from. -/
theorem read_below (m : Memory) (lo a : Nat) (h : m.wfFrom lo) (ha : a < lo) : m.read a = Memory.unlisted := by
  induction m generalizing lo with
  | nil => rfl
  | cons c m ih =>
    simp only [Memory.wfFrom, Bool.and_eq_true, decide_eq_true_eq] at h
    rw [Memory.read, if_neg (by omega)]
    exact ih (c.1 + 1) h.2 (by omega)

/-- A read after a write of the same register gives the value written. -/
theorem read_write_same (m : Memory) (lo a : Nat) (v : Byte) (h : m.wfFrom lo) : (m.write a v).read a = v := by
  induction m generalizing lo with
  | nil => unfold Memory.write; split <;> simp_all [Memory.read]
  | cons c m ih =>
    simp only [Memory.wfFrom, Bool.and_eq_true, decide_eq_true_eq] at h
    unfold Memory.write
    split
    · next hlt =>
      split
      · next hv =>
        rw [Memory.read, if_neg (by omega), hv]
        exact read_below m _ a h.2 (by omega)
      · simp [Memory.read]
    · split
      · next heq =>
        split
        · next hv => rw [hv]; exact read_below m _ a h.2 (by omega)
        · simp [Memory.read]
      · next hne =>
        rw [Memory.read, if_neg hne]
        exact ih _ h.2

/-- A write leaves every other register. -/
theorem read_write_other (m : Memory) (a b : Nat) (v : Byte) (h : b ≠ a) : (m.write a v).read b = m.read b := by
  induction m with
  | nil => unfold Memory.write; split <;> simp [Memory.read, h]
  | cons c m ih =>
    unfold Memory.write
    split
    · split
      · rfl
      · rw [Memory.read, if_neg h]
    · split
      · next heq =>
        subst heq
        split <;> simp [Memory.read, h]
      · simp [Memory.read, ih]

/-- A write keeps the canonical form. -/
theorem wfFrom_write (m : Memory) (lo a : Nat) (v : Byte) (h : m.wfFrom lo) (hlo : lo ≤ a) (ha : a < 4096) :
    (m.write a v).wfFrom lo := by
  induction m generalizing lo with
  | nil => unfold Memory.write; split <;> simp_all [Memory.wfFrom]
  | cons c m ih =>
    have h0 := h
    simp only [Memory.wfFrom, Bool.and_eq_true, decide_eq_true_eq] at h
    unfold Memory.write
    split
    · next hlt =>
      split
      · exact h0
      · next hv =>
        simp only [Memory.wfFrom, Bool.and_eq_true, decide_eq_true_eq]
        exact ⟨⟨⟨hlo, ha⟩, hv⟩, ⟨⟨by omega, h.1.1.2⟩, h.1.2⟩, h.2⟩
    · split
      · next heq =>
        split
        · exact wfFrom_mono m _ _ h.2 (by omega)
        · next hv =>
          simp only [Memory.wfFrom, Bool.and_eq_true, decide_eq_true_eq]
          exact ⟨⟨⟨hlo, ha⟩, hv⟩, by rw [heq]; exact h.2⟩
      · simp only [Memory.wfFrom, Bool.and_eq_true, decide_eq_true_eq]
        exact ⟨⟨⟨h.1.1.1, h.1.1.2⟩, h.1.2⟩, ih _ h.2 (by omega)⟩

/-- A write at a port address that is not null keeps the port registers' canonical form. -/
theorem wf_write (m : Memory) (a : PortAddr) (v : Byte) (h : m.wf) (ha : a ≠ nullPort) : (m.write a.toNat v).wf := by
  refine wfFrom_write m 1 a.toNat v h ?_ a.isLt
  have : a.toNat ≠ 0 := fun h0 => ha (BitVec.eq_of_toNat_eq (by simpa [nullPort] using h0))
  omega

/-- Reset's port registers are in canonical form. -/
theorem wf_reset : State.reset.ports.wf := rfl

end Sys2Proof.Machine
end

