-- ==== Sys2Proof/Laws/Ops.lean ====
section
/-! SUPPORT. One lemma per shared operation, saying once what it can do: the port bus, a micro-operation, a command's
acceptance, a step, and runs of steps. -/

namespace Sys2Proof.Machine

/-! ## The port bus -/

/-- An answered bus supplies a value (R57). -/
theorem busValue_of_answered (s : State) (a : PortAddr) (h : s.answered = true) : ∃ v, s.busValue a = some v := by
  unfold State.busValue
  unfold State.answered at h
  split <;> simp_all

/-- Plain registers supply the register's value (R57). -/
@[simp] theorem busValue_plain (s : State) (a : PortAddr) (h : s.answers = []) :
    s.busValue a = some (s.ports.read a.toNat) := by
  simp [State.busValue, h]

/-- Dropping the first answer keeps a bus answered. -/
theorem answered_tail (s : State) (h : s.answered = true) : (s.answers.tail.all fun a => a != .silent) = true := by
  unfold State.answered at h
  cases hs : s.answers <;> simp_all

/-- A set bit reads as 1, a cleared one as 0, and no other bit changes (R55, R132, R134). -/
theorem pinLevel_rmw_set (v : Byte) (i j : PinCode) (hi : i.toNat ≤ 7) (hj : j.toNat ≤ 7) :
    pinLevel (rmwValue v 0x00#8 (pinMask i)) j = (decide (j = i) || pinLevel v j) := by
  have e : (j = i) ↔ j.toNat = i.toNat := ⟨fun h => by rw [h], BitVec.eq_of_toNat_eq⟩
  simp only [pinLevel, rmwValue, pinMask, BitVec.getLsbD_ushiftRight, BitVec.getLsbD_or, BitVec.getLsbD_and,
    BitVec.getLsbD_not, BitVec.getLsbD_shiftLeft, e]
  generalize i.toNat = a at *
  generalize j.toNat = b at *
  interval_cases a <;> interval_cases b <;> simp

/-- The same for a cleared bit (R55, R134). -/
theorem pinLevel_rmw_clear (v : Byte) (i j : PinCode) (hi : i.toNat ≤ 7) (hj : j.toNat ≤ 7) :
    pinLevel (rmwValue v (pinMask i) 0x00#8) j = (!decide (j = i) && pinLevel v j) := by
  have e : (j = i) ↔ j.toNat = i.toNat := ⟨fun h => by rw [h], BitVec.eq_of_toNat_eq⟩
  simp only [pinLevel, rmwValue, pinMask, BitVec.getLsbD_ushiftRight, BitVec.getLsbD_or, BitVec.getLsbD_and,
    BitVec.getLsbD_not, BitVec.getLsbD_shiftLeft, e]
  generalize i.toNat = a at *
  generalize j.toNat = b at *
  interval_cases a <;> interval_cases b <;> simp

/-! ## A micro-operation -/

/-- The accumulator after a micro-operation whose event is given (R154). -/
def accAfter (e : MicroEntry) (ev : BusEvent) (acc : Byte) : Byte :=
  match e.op, ev with
  | .readBit _ i ord, .read _ v => accumulate acc (pinLevel v i) e.cycle ord
  | _, _ => acc

/-- HOLDLEFT after a micro-operation (R139). -/
def holdAfter (e : MicroEntry) (holdLeft : Nat) : Nat :=
  match e.op with
  | .delay n => n.toNat
  | _ => holdLeft

/-- The answers to come after a micro-operation: one fewer after a transaction. -/
def answersAfter (e : MicroEntry) (answers : List BusAnswer) : List BusAnswer :=
  match e.op with
  | .delay _ => answers
  | _ => answers.tail

/-- The port registers after an event (R55). -/
def portsAfter (ev : BusEvent) (ports : Memory) : Memory :=
  match ev with
  | .rmw a _ _ left => ports.write a.toNat left
  | _ => ports

/-- The value of an event comes from the bus (R54, R55). -/
def FromBus (s : State) : BusEvent → Prop
  | .rmw a clr set left => ∃ old, s.busValue a = some old ∧ left = rmwValue old clr set
  | .read a v => s.busValue a = some v
  | .hold _ => True

/-- Everything performing a micro-operation does. -/
structure Performed (e : MicroEntry) (rest : List MicroEntry) (s t : State) (ev : BusEvent) : Prop where
  shows   : e.op.shows ev
  fromBus : FromBus s ev
  trace   : t.trace = s.trace ++ [ev]
  blk     : t.blk = { s.blk with acc := accAfter e ev s.blk.acc, ops := rest,
                                 biti := headCycle rest s.blk.biti, holdLeft := holdAfter e s.blk.holdLeft }
  ports   : t.ports = portsAfter ev s.ports
  answers : t.answers = answersAfter e s.answers
  cfg     : t.cfg = s.cfg
  offered : t.offered = s.offered
  agenda  : t.agenda = s.agenda

/-- The port and pin of a transaction's micro-operation are legal (R138). -/
theorem portGuard_legal (a : PortAddr) (i : PinCode) (r : PrimResult) (ha : a ≠ nullPort) (hi : pinIsIndex i = true) :
    portGuard a i r = r := by
  simp [portGuard, ha, hi]

/-- A legal micro-operation on an answered bus is performed (R130). -/
theorem performMicro_legal (e : MicroEntry) (rest : List MicroEntry) (s : State)
    (hl : e.op.legal s.blk.delay = true) (ha : s.answered = true) :
    ∃ t ev, performMicro e rest s = .next t ∧ Performed e rest s t ev := by
  obtain ⟨c, op⟩ := e
  cases op with
  | setBit a i =>
    obtain ⟨v, hv⟩ := busValue_of_answered s a ha
    simp only [MicroOp.legal, Bool.and_eq_true, bne_iff_ne] at hl
    simp only [performMicro, setBit, portGuard_legal _ _ _ hl.1 hl.2, portRMW, hv, PrimResult.outcome]
    exact ⟨_, .rmw a 0x00#8 (pinMask i) (rmwValue v 0x00#8 (pinMask i)), rfl, ⟨rfl, rfl, rfl⟩, ⟨v, hv, rfl⟩, rfl, rfl, rfl, rfl,
      rfl, rfl, rfl⟩
  | clearBit a i =>
    obtain ⟨v, hv⟩ := busValue_of_answered s a ha
    simp only [MicroOp.legal, Bool.and_eq_true, bne_iff_ne] at hl
    simp only [performMicro, clearBit, portGuard_legal _ _ _ hl.1 hl.2, portRMW, hv, PrimResult.outcome]
    exact ⟨_, .rmw a (pinMask i) 0x00#8 (rmwValue v (pinMask i) 0x00#8), rfl, ⟨rfl, rfl, rfl⟩, ⟨v, hv, rfl⟩, rfl, rfl, rfl, rfl,
      rfl, rfl, rfl⟩
  | readBit a i ord =>
    obtain ⟨v, hv⟩ := busValue_of_answered s a ha
    simp only [MicroOp.legal, Bool.and_eq_true, bne_iff_ne] at hl
    simp only [performMicro, readBit, portGuard_legal _ _ _ hl.1 hl.2, portRead, hv, PrimResult.outcome]
    exact ⟨_, .read a v, rfl, rfl, hv, rfl, rfl, rfl, rfl, rfl, rfl, rfl⟩
  | delay n => exact ⟨_, .hold n, rfl, rfl, trivial, rfl, rfl, rfl, rfl, rfl, rfl, rfl⟩

/-- All a micro-operation that answers a next state can do: wait for a silent bus, or be performed. -/
theorem performMicro_cases (e : MicroEntry) (rest : List MicroEntry) (s t : State)
    (h : performMicro e rest s = .next t) : t = s ∨ ∃ ev, Performed e rest s t ev := by
  obtain ⟨c, op⟩ := e
  cases op with
  | setBit a i =>
    simp only [performMicro, setBit, portGuard, portRMW] at h
    split at h
    · cases h
    · split at h
      · split at h
        · simp only [PrimResult.outcome, Host.Outcome.next.injEq] at h; exact .inl h.symm
        · next v hv =>
          simp only [PrimResult.outcome, Host.Outcome.next.injEq] at h
          subst h
          exact .inr ⟨.rmw a 0x00#8 (pinMask i) (rmwValue v 0x00#8 (pinMask i)), ⟨rfl, rfl, rfl⟩, ⟨v, hv, rfl⟩,
            rfl, rfl, rfl, rfl, rfl, rfl, rfl⟩
      · cases h
  | clearBit a i =>
    simp only [performMicro, clearBit, portGuard, portRMW] at h
    split at h
    · cases h
    · split at h
      · split at h
        · simp only [PrimResult.outcome, Host.Outcome.next.injEq] at h; exact .inl h.symm
        · next v hv =>
          simp only [PrimResult.outcome, Host.Outcome.next.injEq] at h
          subst h
          exact .inr ⟨.rmw a (pinMask i) 0x00#8 (rmwValue v (pinMask i) 0x00#8), ⟨rfl, rfl, rfl⟩, ⟨v, hv, rfl⟩,
            rfl, rfl, rfl, rfl, rfl, rfl, rfl⟩
      · cases h
  | readBit a i ord =>
    simp only [performMicro, readBit, portGuard, portRead] at h
    split at h
    · cases h
    · split at h
      · split at h
        · simp only [PrimResult.outcome, Host.Outcome.next.injEq] at h; exact .inl h.symm
        · next v hv =>
          simp only [PrimResult.outcome, Host.Outcome.next.injEq] at h
          subst h
          exact .inr ⟨.read a v, rfl, hv, rfl, rfl, rfl, rfl, rfl, rfl, rfl⟩
      · cases h
  | delay n =>
    simp only [performMicro, startHold, PrimResult.outcome, Host.Outcome.next.injEq] at h
    subst h
    exact .inr ⟨.hold n, rfl, trivial, rfl, rfl, rfl, rfl, rfl, rfl, rfl⟩

/-! ## A command's acceptance -/

/-- Every command's acceptance answers a next state that differs in the block only (R100, R204, R206). -/
theorem exec_changes_only_block (i : Instr) (s : State) : ∃ b, exec i s = .next (s.withBlk b) := by
  cases i with
  | bind role port pin => simp only [exec, execBind]; split <;> exact ⟨_, rfl⟩
  | init port m n c l => simp only [exec, execInit]; split <;> exact ⟨_, rfl⟩
  | isready => exact ⟨_, rfl⟩
  | setdelay ticks => simp only [exec, execSetdelay]; split <;> exact ⟨_, rfl⟩
  | transfer val ord => simp only [exec, execTransfer, acceptTransfer]; split <;> [skip; split] <;> exact ⟨_, rfl⟩
  | trigger => simp only [exec, execTrigger, acceptSelect]; split <;> exact ⟨_, rfl⟩
  | writecs lvl => simp only [exec, execWritecs, acceptSelect]; split <;> exact ⟨_, rfl⟩
  | clear => simp only [exec, execClear, acceptTransfer]; split <;> [skip; split] <;> exact ⟨_, rfl⟩

/-! ## A step -/

/-- With no other agent's turn to come, a step is the block's (R9). -/
theorem step_no_agenda (s : State) (h : s.agenda = []) : step s = sequencerStep s := by
  simp [step, agendaStep, h]

/-- With another turn to come, a step is that turn (R9). -/
theorem step_turn (s : State) (t : Turn) (rest : List Turn) (h : s.agenda = t :: rest) :
    step s = takeTurn t { s with agenda := rest } := by
  simp [step, agendaStep, h]

/-- A running block goes on with its command (R206). -/
theorem step_running (s : State) (h : s.agenda = []) (hb : s.blk.busy = true) : step s = runningStep s := by
  simp [step_no_agenda s h, sequencerStep, hb]

/-- An idle block accepts the next offered word (R206). -/
theorem step_accepts (s : State) (w : Word) (rest : List Word) (h : s.agenda = []) (hb : s.blk.busy = false)
    (ho : s.offered = w :: rest) : step s = acceptWord w { s with offered := rest } := by
  simp [step_no_agenda s h, sequencerStep, hb, ho]

/-- The next micro-operation of a running block with no hold in progress (R206). -/
theorem runningStep_micro (s : State) (e : MicroEntry) (rest : List MicroEntry) (hh : s.blk.holdLeft = 0)
    (ho : s.blk.ops = e :: rest) : runningStep s = performMicro e rest s := by
  simp [runningStep, hh, ho]

/-- The completion step (R205). -/
theorem runningStep_finish (s : State) (hh : s.blk.holdLeft = 0) (ho : s.blk.ops = []) :
    runningStep s = .next (s.withBlk s.blk.finish) := by
  simp [runningStep, hh, ho]

/-- A tick of the hold in progress (R139). -/
theorem runningStep_tick (s : State) (hh : s.blk.holdLeft ≠ 0) : runningStep s = .next (tick s) := by
  simp [runningStep, hh]

/-! ## Runs of steps -/

@[simp] theorem steps_zero (s t : State) : Steps 0 s t ↔ s = t := by
  refine ⟨fun h => ?_, fun h => by rw [h]; rfl⟩
  exact Host.Outcome.next.inj h

/-- One more step in front. -/
theorem steps_succ (n : Nat) (s t : State) : Steps (n + 1) s t ↔ ∃ u, step s = .next u ∧ Steps n u t := by
  simp only [Steps, Host.Core.run]
  have hs : Sys2Proof.core.step s = step s := rfl
  rw [hs]
  cases h : step s with
  | next v => exact ⟨fun hr => ⟨v, rfl, hr⟩, fun ⟨u, hu, hr⟩ => by cases hu; exact hr⟩
  | fault f => exact ⟨fun hr => (nomatch hr), fun ⟨u, hu, _⟩ => (nomatch hu)⟩
  | refused r => exact ⟨fun hr => (nomatch hr), fun ⟨u, hu, _⟩ => (nomatch hu)⟩

/-- Two runs, one after the other. -/
theorem steps_append (m n : Nat) (s t u : State) (h1 : Steps m s t) (h2 : Steps n t u) : Steps (m + n) s u := by
  induction m generalizing s with
  | zero => rw [steps_zero] at h1; subst h1; simpa using h2
  | succ m ih =>
    obtain ⟨v, hv, hr⟩ := (steps_succ m s t).mp h1
    rw [Nat.succ_add]
    exact (steps_succ _ s u).mpr ⟨v, hv, ih v hr⟩

/-- Ticks of a hold: HOLDLEFT counts down, and nothing else changes (R139). -/
theorem steps_ticks (k : Nat) (s : State) (ha : s.agenda = []) (hb : s.blk.busy = true) (hk : k ≤ s.blk.holdLeft) :
    Steps k s (s.withBlk { s.blk with holdLeft := s.blk.holdLeft - k }) := by
  induction k generalizing s with
  | zero => exact (steps_zero s _).mpr rfl
  | succ k ih =>
    refine (steps_succ k s _).mpr ⟨tick s, ?_, ?_⟩
    · rw [step_running s ha hb, runningStep_tick s (by omega)]
    · have h := ih (tick s) ha hb (by simp only [tick, withBlk_blk]; omega)
      have e : (tick s).withBlk { (tick s).blk with holdLeft := (tick s).blk.holdLeft - k } =
          s.withBlk { s.blk with holdLeft := s.blk.holdLeft - (k + 1) } := by
        simp only [tick, withBlk_withBlk, withBlk_blk, Nat.sub_sub, Nat.add_comm 1 k]
      rwa [e] at h

end Sys2Proof.Machine
end

