-- ==== Sys2Proof/Laws/Exec.lean ====
section
/-! SUPPORT. One lemma per path of each command's acceptance (rules R101..R111, R152, R160, R181, R184): what exec
answers. Proofs cite these rather than unfold exec. -/

namespace Sys2Proof.Machine

theorem exec_bind_legal (s : State) (r : Role) (a : PortAddr) (p : PinCode) (h : pinLegal r p = true) :
    exec (.bind r a p) s =
      .next (s.withBlk ((s.blk.accept (encode (.bind r a p))).recordBinding r a p).complete) := by
  simp [exec, execBind, h]

theorem exec_bind_illegal (s : State) (r : Role) (a : PortAddr) (p : PinCode) (h : pinLegal r p = false) :
    exec (.bind r a p) s =
      .next (s.withBlk ((s.blk.accept (encode (.bind r a p))).raise .pinIndexOutOfRange)) := by
  simp [exec, execBind, h]

theorem exec_init_legal (s : State) (a : PortAddr) (m n c l : PinCode) (h : initPinsLegal m n c l = true) :
    exec (.init a m n c l) s =
      .next (s.withBlk ({ s.blk.accept (encode (.init a m n c l)) with
        bind := { mosi := { port := a, pin := m }, miso := { port := a, pin := n },
                  clk := { port := a, pin := c }, sel := { port := a, pin := l } }
        initstat := initstatAfterInit a } : SeqState).complete) := by
  simp [exec, execInit, h]

theorem exec_init_illegal (s : State) (a : PortAddr) (m n c l : PinCode) (h : initPinsLegal m n c l = false) :
    exec (.init a m n c l) s =
      .next (s.withBlk ((s.blk.accept (encode (.init a m n c l))).raise .pinIndexOutOfRange)) := by
  simp [exec, execInit, h]

theorem exec_isready (s : State) :
    exec .isready s = .next (s.withBlk ({ s.blk.accept (encode .isready) with
      result := readyByte (s.blk.accept (encode .isready)) } : SeqState).complete) := rfl

theorem exec_setdelay_positive (s : State) (t : Ticks) (h : ticksPositive t = true) :
    exec (.setdelay t) s =
      .next (s.withBlk ({ s.blk.accept (encode (.setdelay t)) with delay := t } : SeqState).complete) := by
  simp [exec, execSetdelay, h]

theorem exec_setdelay_nonpositive (s : State) (t : Ticks) (h : ticksPositive t = false) :
    exec (.setdelay t) s = .next (s.withBlk (s.blk.accept (encode (.setdelay t))).complete) := by
  simp [exec, execSetdelay, h]

/-- TRANSFER and CLEAR share one acceptance (R160). -/
theorem exec_transfer (s : State) (i : Instr) (val : Byte) (ord : BitOrder) (hi : IsTransfer i val ord) :
    exec i s = .next (acceptTransfer (encode i) val ord s) := by
  rcases hi with rfl | ⟨rfl, rfl, rfl⟩ <;> rfl

theorem acceptTransfer_valid (s : State) (w : Word) (val : Byte) (ord : BitOrder) (hr : s.blk.ready = true)
    (hm : s.blk.misoInvalid = false) :
    acceptTransfer w val ord s =
      s.withBlk ((s.blk.accept w).load (transferOps s.cfg.samplePoint (s.blk.accept w) val ord)) := by
  simp [acceptTransfer, hr, hm]

theorem acceptTransfer_invalid (s : State) (w : Word) (val : Byte) (ord : BitOrder)
    (h : s.blk.ready = false ∨ s.blk.misoInvalid = true) :
    acceptTransfer w val ord s = s.withBlk ((s.blk.accept w).raise .invalidBinding) := by
  unfold acceptTransfer
  rcases h with h | h <;> simp [h]

theorem acceptSelect_ready (s : State) (w : Word) (ops : List MicroOp) (hr : s.blk.ready = true) :
    acceptSelect w ops s = s.withBlk ((s.blk.accept w).load (selectEntries ops)) := by
  simp [acceptSelect, hr]

theorem acceptSelect_notReady (s : State) (w : Word) (ops : List MicroOp) (hr : s.blk.ready = false) :
    acceptSelect w ops s = s.withBlk ((s.blk.accept w).raise .invalidBinding) := by
  simp [acceptSelect, hr]

/-- The pin codes a role may be bound with, in R76's words. -/
theorem pinLegal_iff (r : Role) (p : PinCode) :
    pinLegal r p = true ↔ (p.toNat ≤ 7 ∨ (p = 15#4 ∧ (r = .mosi ∨ r = .miso))) := by
  cases r <;> simp [pinLegal, pinIsIndex, noPin]

/-- SETDELAY's positive operands, as unsigned numbers (R111). -/
theorem ticksPositive_iff (t : Ticks) : ticksPositive t = true ↔ 1 ≤ t.toNat ∧ t.toNat ≤ 32767 := by
  simp only [ticksPositive, decide_eq_true_eq]
  have := t.isLt
  rw [BitVec.toInt_eq_toNat_cond]
  split <;> omega

end Sys2Proof.Machine
end

