-- ==== Sys2Proof/Laws/Runs.lean ====
section
/-! SUPPORT. A running block performs its micro-operation list to its end (rules R139, R205, R206): one lemma per fact,
by induction on the list, so that claims about whole commands need no induction of their own. -/

namespace Sys2Proof.Machine

/-- The block with no hold in progress. -/
def State.endHold (s : State) : State := s.withBlk { s.blk with holdLeft := 0 }

/-- A list of micro-operations performed one after the other, each with its event, holds waited to their end. -/
inductive Runs : List MicroEntry → State → State → List BusEvent → Prop where
  | nil (s : State) : Runs [] s s []
  | cons (e : MicroEntry) (rest : List MicroEntry) (s u t : State) (ev : BusEvent) (evs : List BusEvent) :
      s.blk.holdLeft = 0 → Performed e rest s u ev → Runs rest u.endHold t evs → Runs (e :: rest) s t (ev :: evs)

/-- A micro-operation, and all of its ticks when it is a hold, take the steps that MicroOp.steps says. -/
theorem steps_micro (e : MicroEntry) (rest : List MicroEntry) (s : State) (ha : s.agenda = [])
    (hb : s.blk.busy = true) (hh : s.blk.holdLeft = 0) (ho : s.blk.ops = e :: rest) (hn : s.answered = true)
    (hl : e.op.legal s.blk.delay = true) :
    ∃ u ev, Performed e rest s u ev ∧ step s = .next u ∧ Steps e.op.steps s u.endHold := by
  obtain ⟨u, ev, hu, hp⟩ := performMicro_legal e rest s hl hn
  have hs : step s = .next u := by rw [step_running s ha hb, runningStep_micro s e rest hh ho, hu]
  refine ⟨u, ev, hp, hs, ?_⟩
  have one : Steps 1 s u := (steps_succ 0 s u).mpr ⟨u, hs, (steps_zero u u).mpr rfl⟩
  have keep : u.blk.holdLeft = 0 → u.endHold = u := fun h0 => by
    unfold State.endHold; rw [← h0]; rfl
  have hold : u.blk.holdLeft = holdAfter e s.blk.holdLeft := by rw [hp.blk]
  obtain ⟨c, op⟩ := e
  cases op with
  | setBit a i => rw [keep (by rw [hold, hh]; rfl)]; exact one
  | clearBit a i => rw [keep (by rw [hold, hh]; rfl)]; exact one
  | readBit a i ord => rw [keep (by rw [hold, hh]; rfl)]; exact one
  | delay n =>
    have hk := steps_ticks n.toNat u (by rw [hp.agenda, ha]) (by rw [hp.blk]; exact hb) (by rw [hold]; exact Nat.le_refl _)
    have e0 : u.blk.holdLeft - n.toNat = 0 := by rw [hold]; exact Nat.sub_self _
    rw [e0] at hk
    exact steps_append 1 n.toNat _ _ _ one hk

/-- What performing a micro-operation leaves for the next one. -/
theorem endHold_next (e : MicroEntry) (rest : List MicroEntry) (s u : State) (ev : BusEvent)
    (hp : Performed e rest s u ev) (ha : s.agenda = []) (hb : s.blk.busy = true) (hn : s.answered = true) :
    u.endHold.agenda = [] ∧ u.endHold.blk.busy = true ∧ u.endHold.blk.holdLeft = 0 ∧ u.endHold.blk.ops = rest ∧
      u.endHold.answered = true ∧ u.endHold.blk.delay = s.blk.delay := by
  refine ⟨by rw [State.endHold, withBlk_agenda, hp.agenda, ha], ?_, rfl, ?_, ?_, ?_⟩
  · simp only [State.endHold, withBlk_blk, hp.blk, hb]
  · simp only [State.endHold, withBlk_blk, hp.blk]
  · simp only [State.answered, State.endHold, withBlk_answers, hp.answers, answersAfter]
    split
    · exact hn
    · exact answered_tail s hn
  · simp only [State.endHold, withBlk_blk, hp.blk]

/-- A running block whose bus answers performs its whole list, in the steps of its micro-operations. -/
theorem runs_list (ops : List MicroEntry) : ∀ s : State, s.agenda = [] → s.blk.busy = true → s.blk.holdLeft = 0 →
    s.blk.ops = ops → s.answered = true → (∀ e ∈ ops, e.op.legal s.blk.delay = true) →
    ∃ t evs, Runs ops s t evs ∧ Steps (ops.map fun e => e.op.steps).sum s t := by
  induction ops with
  | nil => intro s _ _ _ _ _ _; exact ⟨s, [], .nil s, (steps_zero s s).mpr rfl⟩
  | cons e rest ih =>
    intro s ha hb hh ho hn hl
    obtain ⟨u, ev, hp, -, hs⟩ := steps_micro e rest s ha hb hh ho hn (hl e (List.mem_cons_self ..))
    obtain ⟨h1, h2, h3, h4, h5, h6⟩ := endHold_next e rest s u ev hp ha hb hn
    obtain ⟨t, evs, hr, ht⟩ := ih u.endHold h1 h2 h3 h4 h5
      (fun x hx => by rw [h6]; exact hl x (List.mem_cons_of_mem _ hx))
    refine ⟨t, ev :: evs, .cons e rest s u t ev evs hh hp hr, ?_⟩
    simpa using steps_append _ _ _ _ _ hs ht

/-- Each micro-operation shows its event on the trace, in order (R58, R246). -/
theorem Runs.shown {ops : List MicroEntry} {s t : State} {evs : List BusEvent} (h : Runs ops s t evs) :
    t.trace = s.trace ++ evs ∧ List.Forall₂ (fun (e : MicroEntry) ev => e.op.shows ev) ops evs := by
  induction h with
  | nil s => exact ⟨by simp, .nil⟩
  | cons e rest s u t ev evs hh hp hr ih =>
    refine ⟨?_, .cons hp.shows ih.2⟩
    rw [ih.1, State.endHold, withBlk_trace, hp.trace]
    simp

/-- The accumulator after a list of micro-operations with their events (R154). -/
def accAfterAll : List MicroEntry → List BusEvent → Byte → Byte
  | e :: ops, ev :: evs, acc => accAfterAll ops evs (accAfter e ev acc)
  | _, _, acc => acc

/-- The bit cycle after a list of micro-operations (R30). -/
def bitiAfterAll : List MicroEntry → Fin 8 → Fin 8
  | [], c => c
  | _ :: rest, c => bitiAfterAll rest (headCycle rest c)

/-- What performing a list leaves of the machine: only ACC, BITI, OPS, the port registers, the answers and the trace
change. -/
theorem Runs.leaves {ops : List MicroEntry} {s t : State} {evs : List BusEvent} (h : Runs ops s t evs)
    (ho : s.blk.ops = ops) :
    t.blk = { s.blk with acc := accAfterAll ops evs s.blk.acc, ops := [], biti := bitiAfterAll ops s.blk.biti } ∧
      t.cfg = s.cfg ∧ t.offered = s.offered ∧ t.agenda = s.agenda := by
  induction h with
  | nil s => exact ⟨by simp [accAfterAll, bitiAfterAll, ← ho], rfl, rfl, rfl⟩
  | cons e rest s u t ev evs hh hp hr ih =>
    obtain ⟨h1, h2, h3, h4⟩ := ih (by simp only [State.endHold, withBlk_blk, hp.blk])
    refine ⟨?_, by rw [h2]; exact hp.cfg, by rw [h3]; exact hp.offered, by rw [h4]; exact hp.agenda⟩
    rw [h1]
    simp only [State.endHold, withBlk_blk, hp.blk, accAfterAll, bitiAfterAll, hh]

/-- A list leaves every port register that no write of it names (R58). -/
theorem Runs.ports_other {ops : List MicroEntry} {s t : State} {evs : List BusEvent} (h : Runs ops s t evs) (b : Nat)
    (hb : ∀ e ∈ ops, ∀ a i, e.op = .setBit a i ∨ e.op = .clearBit a i → b ≠ a.toNat) :
    t.ports.read b = s.ports.read b := by
  induction h with
  | nil s => rfl
  | cons e rest s u t ev evs hh hp hr ih =>
    rw [ih (fun x hx => hb x (List.mem_cons_of_mem _ hx)), State.endHold, withBlk_ports, hp.ports]
    have he := hb e (List.mem_cons_self ..)
    have hs := hp.shows
    obtain ⟨c, op⟩ := e
    cases ev with
    | rmw a clr set left =>
      cases op with
      | setBit a' i => exact read_write_other _ _ _ _ (by rw [hs.1]; exact he a' i (.inl rfl))
      | clearBit a' i => exact read_write_other _ _ _ _ (by rw [hs.1]; exact he a' i (.inr rfl))
      | readBit _ _ _ => exact hs.elim
      | delay _ => exact hs.elim
    | read _ _ => rfl
    | hold _ => rfl

/-- A running block whose bus answers performs its whole list and completes, in the steps of the list (R205). -/
theorem runs_to_completion (s : State) (ha : s.agenda = []) (hb : s.blk.busy = true) (hh : s.blk.holdLeft = 0)
    (hn : s.answered = true) (hl : ∀ e ∈ s.blk.ops, e.op.legal s.blk.delay = true) :
    ∃ u evs, Runs s.blk.ops s u evs ∧ Steps (listSteps s.blk.ops) s (u.withBlk u.blk.finish) := by
  obtain ⟨u, evs, hr, hs⟩ := runs_list s.blk.ops s ha hb hh rfl hn hl
  refine ⟨u, evs, hr, steps_append _ 1 _ _ _ hs ?_⟩
  obtain ⟨hblk, -, -, hag⟩ := hr.leaves rfl
  refine (steps_succ 0 u _).mpr ⟨_, ?_, (steps_zero _ _).mpr rfl⟩
  rw [step_running u (by rw [hag, ha]) (by rw [hblk]; exact hb),
    runningStep_finish u (by rw [hblk]; exact hh) (by rw [hblk])]

/-! ## Plain registers -/

/-- A pin's level after a micro-operation, under plain registers (R132, R134, R136). -/
def pinAfter (a : PortAddr) (i : PinCode) (op : MicroOp) (level : Bool) : Bool :=
  match op with
  | .setBit b j => if b = a ∧ j = i then true else level
  | .clearBit b j => if b = a ∧ j = i then false else level
  | .readBit _ _ _ => level
  | .delay _ => level

/-- A pin's level after a list of micro-operations. -/
def pinAfterAll (a : PortAddr) (i : PinCode) (ops : List MicroEntry) (level : Bool) : Bool :=
  ops.foldl (fun l e => pinAfter a i e.op l) level

/-- Plain registers: a read-modify-write changes the one bit, in the one register (R55). -/
theorem pin_after_rmw (m : Memory) (lo : Nat) (a b : PortAddr) (i : PinCode) (v : Byte) (hw : m.wfFrom lo) :
    pinLevel ((m.write b.toNat v).read a.toNat) i =
      if b = a then pinLevel v i else pinLevel (m.read a.toNat) i := by
  split
  · next h => rw [h, read_write_same m lo _ v hw]
  · next h => rw [read_write_other m _ _ v (fun he => h (BitVec.eq_of_toNat_eq he.symm))]

/-- One micro-operation under plain registers: each pin's level, the canonical form, and no answers left to give. -/
theorem Performed.plain {e : MicroEntry} {rest : List MicroEntry} {s u : State} {ev : BusEvent}
    (hp : Performed e rest s u ev) (d : Ticks) (hl : e.op.legal d = true) (hw : s.ports.wf = true)
    (hq : s.answers = []) :
    u.ports.wf = true ∧ u.answers = [] ∧
      (∀ (a : PortAddr) (i : PinCode), i.toNat ≤ 7 → u.pinAt a i = pinAfter a i e.op (s.pinAt a i)) ∧
      (∀ a i ord, e.op = .readBit a i ord → ev = .read a (s.ports.read a.toNat)) := by
  have hans : u.answers = [] := by rw [hp.answers, hq]; unfold answersAfter; split <;> rfl
  have hsh := hp.shows
  have hfb := hp.fromBus
  obtain ⟨c, op⟩ := e
  cases op with
  | setBit b j =>
    cases ev with
    | rmw b' clr set left =>
      obtain ⟨rfl, rfl, rfl⟩ := hsh
      obtain ⟨old, ho, rfl⟩ := hfb
      rw [busValue_plain s _ hq] at ho
      cases ho
      simp only [MicroOp.legal, Bool.and_eq_true, bne_iff_ne] at hl
      have hj : j.toNat ≤ 7 := by simpa [pinIsIndex] using hl.2
      refine ⟨by rw [hp.ports]; exact wf_write _ _ _ hw hl.1, hans, fun a i hi => ?_, fun _ _ _ h => nomatch h⟩
      rw [State.pinAt, hp.ports, portsAfter, pin_after_rmw _ 1 _ _ _ _ hw, pinLevel_rmw_set _ _ _ hj hi]
      by_cases hb : b' = a <;> by_cases hji : j = i <;>
        simp [pinAfter, hb, hji, eq_comm (a := i) (b := j), State.pinAt]
    | read _ _ => exact hsh.elim
    | hold _ => exact hsh.elim
  | clearBit b j =>
    cases ev with
    | rmw b' clr set left =>
      obtain ⟨rfl, rfl, rfl⟩ := hsh
      obtain ⟨old, ho, rfl⟩ := hfb
      rw [busValue_plain s _ hq] at ho
      cases ho
      simp only [MicroOp.legal, Bool.and_eq_true, bne_iff_ne] at hl
      have hj : j.toNat ≤ 7 := by simpa [pinIsIndex] using hl.2
      refine ⟨by rw [hp.ports]; exact wf_write _ _ _ hw hl.1, hans, fun a i hi => ?_, fun _ _ _ h => nomatch h⟩
      rw [State.pinAt, hp.ports, portsAfter, pin_after_rmw _ 1 _ _ _ _ hw, pinLevel_rmw_clear _ _ _ hj hi]
      by_cases hb : b' = a <;> by_cases hji : j = i <;>
        simp [pinAfter, hb, hji, eq_comm (a := i) (b := j), State.pinAt]
    | read _ _ => exact hsh.elim
    | hold _ => exact hsh.elim
  | readBit b j ord =>
    cases ev with
    | read b' v =>
      cases hsh
      simp only [FromBus] at hfb
      rw [busValue_plain s _ hq] at hfb
      cases hfb
      refine ⟨by rw [hp.ports]; exact hw, hans, fun a i _ => by rw [State.pinAt, hp.ports]; rfl, ?_⟩
      intro a i o h
      cases h
      rfl
    | rmw _ _ _ _ => exact hsh.elim
    | hold _ => exact hsh.elim
  | delay n =>
    cases ev with
    | hold m =>
      refine ⟨by rw [hp.ports]; exact hw, hans, fun a i _ => by rw [State.pinAt, hp.ports]; rfl,
        fun _ _ _ h => nomatch h⟩
    | rmw _ _ _ _ => exact hsh.elim
    | read _ _ => exact hsh.elim

/-- The accumulator after a list under plain registers, when the accumulated pin is one pin whose level is followed
(R154). -/
def accPlain (a : PortAddr) (i : PinCode) : List MicroEntry → Bool → Byte → Byte
  | [], _, acc => acc
  | e :: ops, level, acc =>
    accPlain a i ops (pinAfter a i e.op level)
      (match e.op with
        | .readBit _ _ ord => accumulate acc level e.cycle ord
        | _ => acc)

/-- A list under plain registers: each pin's level after it, and the accumulator. -/
theorem Runs.plain {ops : List MicroEntry} {s t : State} {evs : List BusEvent} (h : Runs ops s t evs) (d : Ticks)
    (hl : ∀ e ∈ ops, e.op.legal d = true) (hw : s.ports.wf = true) (hq : s.answers = []) :
    t.ports.wf = true ∧ t.answers = [] ∧
      (∀ (a : PortAddr) (i : PinCode), i.toNat ≤ 7 → t.pinAt a i = pinAfterAll a i ops (s.pinAt a i)) ∧
      (∀ (a : PortAddr) (i : PinCode), i.toNat ≤ 7 → (∀ e ∈ ops, ∀ b j o, e.op = .readBit b j o → b = a ∧ j = i) →
        accAfterAll ops evs s.blk.acc = accPlain a i ops (s.pinAt a i) s.blk.acc) := by
  induction h with
  | nil s => exact ⟨hw, hq, fun _ _ _ => rfl, fun _ _ _ _ => rfl⟩
  | cons e rest s u t ev evs hh hp hr ih =>
    obtain ⟨h1, h2, h3, h4⟩ := hp.plain d (hl e (List.mem_cons_self ..)) hw hq
    obtain ⟨g1, g2, g3, g4⟩ := ih (fun x hx => hl x (List.mem_cons_of_mem _ hx)) h1 h2
    refine ⟨g1, g2, fun a i hi => ?_, fun a i hi hread => ?_⟩
    · rw [g3 a i hi]
      exact congrArg (pinAfterAll a i rest) (h3 a i hi)
    · have hacc : u.endHold.blk.acc = accAfter e ev s.blk.acc := by simp only [State.endHold, withBlk_blk, hp.blk]
      have hpin : u.endHold.pinAt a i = pinAfter a i e.op (s.pinAt a i) := h3 a i hi
      have := g4 a i hi (fun x hx => hread x (List.mem_cons_of_mem _ hx))
      rw [hacc, hpin] at this
      rw [accAfterAll, this, accPlain]
      congr 1
      have hr := hread e (List.mem_cons_self ..)
      unfold accAfter
      cases hop : e.op with
      | readBit b j o =>
        obtain ⟨rfl, rfl⟩ := hr b j o hop
        rw [h4 _ _ _ hop]
        rfl
      | setBit _ _ => rfl
      | clearBit _ _ => rfl
      | delay _ => rfl

/-- Inside a command, under plain registers: what has been performed is a first part of the list, and every pin's level
is what that part makes it (R206). -/
theorem steps_inside (k : Nat) : ∀ s u : State, s.agenda = [] → s.blk.busy = true → s.answers = [] →
    s.ports.wf = true → (∀ e ∈ s.blk.ops, e.op.legal s.blk.delay = true) →
    k ≤ s.blk.holdLeft + (s.blk.ops.map fun e => e.op.steps).sum → Steps k s u →
    ∃ pre, s.blk.ops = pre ++ u.blk.ops ∧
      ∀ (a : PortAddr) (i : PinCode), i.toNat ≤ 7 → u.pinAt a i = pinAfterAll a i pre (s.pinAt a i) := by
  induction k with
  | zero =>
    intro s u _ _ _ _ _ _ h
    rw [steps_zero] at h
    subst h
    exact ⟨[], rfl, fun _ _ _ => rfl⟩
  | succ k ih =>
    intro s u ha hb hq hw hl hk h
    obtain ⟨v, hv, hu⟩ := (steps_succ k s u).mp h
    rw [step_running s ha hb] at hv
    by_cases hh : s.blk.holdLeft = 0
    · cases ho : s.blk.ops with
      | nil => rw [hh, ho] at hk; simp at hk
      | cons e rest =>
        have hle := hl e (by rw [ho]; exact List.mem_cons_self ..)
        have hn : s.answered = true := by simp [State.answered, hq]
        obtain ⟨v', ev, hv', hp⟩ := performMicro_legal e rest s hle hn
        rw [runningStep_micro s e rest hh ho, hv'] at hv
        obtain rfl := Host.Outcome.next.inj hv
        obtain ⟨h1, h2, h3, -⟩ := hp.plain s.blk.delay hle hw hq
        have hops : v'.blk.ops = rest := by rw [hp.blk]
        have hdel : v'.blk.delay = s.blk.delay := by rw [hp.blk]
        have hhold : v'.blk.holdLeft = holdAfter e 0 := by rw [hp.blk, hh]
        have hsteps : e.op.steps = 1 + holdAfter e 0 := by obtain ⟨c, op⟩ := e; cases op <;> rfl
        obtain ⟨pre, hpre, hpin⟩ := ih v' u (by rw [hp.agenda, ha]) (by rw [hp.blk]; exact hb) h2 h1
          (fun x hx => by
            rw [hops] at hx
            rw [hdel]
            exact hl x (by rw [ho]; exact List.mem_cons_of_mem _ hx))
          (by
            rw [hops, hhold]
            rw [hh, ho] at hk
            simp only [List.map_cons, List.sum_cons, hsteps] at hk
            omega) hu
        refine ⟨e :: pre, by rw [List.cons_append, ← hpre, hops], fun a i hi => ?_⟩
        rw [hpin a i hi, h3 a i hi]
        rfl
    · rw [runningStep_tick s hh] at hv
      cases hv
      exact ih (tick s) u ha hb hq hw hl (by simp only [tick, withBlk_blk]; omega) hu

end Sys2Proof.Machine
end

