-- ==== Sys2Proof/Laws/Lists.lean ====
section
/-! SUPPORT. The micro-operation lists of the commands (rules R138, R152, R155, R156, R181, R184): every entry is legal,
how long a list is and how many steps it takes, what it reads, and what it leaves on each pin. -/

namespace Sys2Proof.Machine

/-! ## Legality (R138) -/

/-- Readiness in INITSTAT's own terms (R116). -/
theorem ready_iff_initstat (b : SeqState) : b.ready = true ↔ b.initstat = 0b111#3 := by simp [SeqState.ready]

/-- INITSTAT 0b111 stands for three ports that are not null (R25). -/
theorem initstat_all (b : Bindings) :
    b.initstat = 0b111#3 ↔ b.mosi.port ≠ nullPort ∧ b.clk.port ≠ nullPort ∧ b.sel.port ≠ nullPort := by
  unfold Bindings.initstat
  simp only [← bne_iff_ne]
  generalize (b.mosi.port != nullPort) = x
  generalize (b.clk.port != nullPort) = y
  generalize (b.sel.port != nullPort) = z
  revert x y z
  decide

/-- A ready block's CLK and SEL bindings are pins of real ports (R26, R51). -/
theorem ready_pins (s : State) (h : s.Inv) (hr : s.blk.initstat = 0b111#3) :
    s.blk.bind.mosi.port ≠ nullPort ∧ (s.blk.bind.clk.port ≠ nullPort ∧ pinIsIndex s.blk.bind.clk.pin = true) ∧
      (s.blk.bind.sel.port ≠ nullPort ∧ pinIsIndex s.blk.bind.sel.pin = true) := by
  rw [h.initstatBits] at hr
  obtain ⟨h1, h2, h3⟩ := (initstat_all _).mp hr
  have hc := h.bindLegal .clk
  have hs := h.bindLegal .sel
  simp only [Binding.legalFor, Bindings.get, pinLegal, Bool.or_eq_true, Bool.and_eq_true, beq_iff_eq] at hc hs
  exact ⟨h1, ⟨h2, hc.resolve_right fun x => h2 x.1⟩, ⟨h3, hs.resolve_right fun x => h3 x.1⟩⟩

/-- A present data role's pin code is a pin index (R26, R76). -/
theorem data_pins (s : State) (h : s.Inv) :
    (s.blk.mosiPresent = true → pinIsIndex s.blk.bind.mosi.pin = true) ∧
      (s.blk.misoPresent = true → pinIsIndex s.blk.bind.miso.pin = true) := by
  have hm := h.bindLegal .mosi
  have hn := h.bindLegal .miso
  simp only [Binding.legalFor, Bindings.get, pinLegal, Bool.or_eq_true, Bool.and_eq_true, beq_iff_eq] at hm hn
  simp only [SeqState.mosiPresent, SeqState.misoPresent, bne_iff_ne]
  tauto

theorem legal_pulseOps (d : Ticks) (bd : Binding) (h1 : bd.port ≠ nullPort) (h2 : pinIsIndex bd.pin = true) :
    ∀ op ∈ pulseOps bd d, op.legal d = true := by
  simp [pulseOps, MicroOp.legal, h1, h2]

theorem legal_writePin (d : Ticks) (bd : Binding) (level : Bool) (h1 : bd.port ≠ nullPort)
    (h2 : pinIsIndex bd.pin = true) : (writePin bd level).legal d = true := by
  cases level <;> simp [writePin, MicroOp.legal, h1, h2]

/-- Every entry of an accepted TRANSFER's list is legal (R138). -/
theorem legal_transferOps (s : State) (h : s.Inv) (hr : s.blk.initstat = 0b111#3) (hm : s.blk.misoInvalid = false)
    (w : Word) (val : Byte) (ord : BitOrder) :
    ∀ e ∈ transferOps s.cfg.samplePoint (s.blk.accept w) val ord, e.op.legal s.blk.delay = true := by
  obtain ⟨m1, ⟨c1, c2⟩, -⟩ := ready_pins s h hr
  obtain ⟨d1, d2⟩ := data_pins s h
  intro e he
  simp only [transferOps, List.mem_flatMap, List.mem_map] at he
  obtain ⟨i, _, op, hop, rfl⟩ := he
  have sample : ∀ here, op ∈ sampleOps (s.blk.accept w) ord here → op.legal s.blk.delay = true := by
    intro here hx
    unfold sampleOps at hx
    split at hx
    · next hc =>
      obtain rfl := List.mem_singleton.mp hx
      have hp : s.blk.misoPresent = true := (Bool.and_eq_true _ _ ▸ hc).1
      have hport : s.blk.bind.miso.port ≠ nullPort := by simpa [SeqState.misoInvalid, hp] using hm
      simp [MicroOp.legal, hport, d2 hp]
    · cases hx
  simp only [cycleOps, List.mem_append] at hop
  rcases hop with ((hop | hop) | hop) | hop
  · unfold dataOps at hop
    split at hop
    · next hc =>
      obtain rfl := List.mem_singleton.mp hop
      exact legal_writePin _ _ _ m1 (d1 hc)
    · cases hop
  · exact sample _ hop
  · exact legal_pulseOps _ _ c1 c2 _ hop
  · exact sample _ hop

/-- A list without bit cycles is legal when its micro-operations are (R138). -/
theorem legal_selectEntries (d : Ticks) (ops : List MicroOp) (h : ∀ op ∈ ops, op.legal d = true) :
    ∀ e ∈ selectEntries ops, e.op.legal d = true := by
  simpa [selectEntries] using h

/-! ## Counts (R155) -/

theorem cycleOps_length (sp : SamplePoint) (b : SeqState) (val : Byte) (ord : BitOrder) (c : Fin 8) :
    (cycleOps sp b val ord c).length = 4 + (if b.mosiPresent then 1 else 0) + (if b.misoPresent then 1 else 0) := by
  cases h1 : b.misoPresent <;> cases h2 : b.mosiPresent <;> cases sp <;>
    simp [cycleOps, dataOps, sampleOps, pulseOps, h1, h2]

theorem cycleOps_steps (sp : SamplePoint) (b : SeqState) (val : Byte) (ord : BitOrder) (c : Fin 8) :
    ((cycleOps sp b val ord c).map MicroOp.steps).sum = (cycleOps sp b val ord c).length + 2 * b.delay.toNat := by
  cases h1 : b.misoPresent <;> cases h2 : b.mosiPresent <;> cases sp <;> cases hb : outBit val ord c <;>
    simp [cycleOps, dataOps, sampleOps, pulseOps, writePin, h1, h2, MicroOp.steps, hb] <;> omega

/-- The micro-operations of a TRANSFER: 8 x (4 + [MOSI present] + [MISO present]) (R155). -/
theorem transferOps_length (sp : SamplePoint) (b : SeqState) (val : Byte) (ord : BitOrder) :
    (transferOps sp b val ord).length =
      8 * (4 + (if b.mosiPresent then 1 else 0) + (if b.misoPresent then 1 else 0)) := by
  simp only [transferOps, bitCycles, List.flatMap_cons, List.flatMap_nil, List.length_append, List.length_map,
    cycleOps_length, List.length_nil]
  omega

/-- The steps of a TRANSFER: its micro-operations, its 16 holds' ticks, and its completion (R155). -/
theorem listSteps_transferOps (sp : SamplePoint) (b : SeqState) (val : Byte) (ord : BitOrder) :
    listSteps (transferOps sp b val ord) = (transferOps sp b val ord).length + 16 * b.delay.toNat + 1 := by
  have h : ∀ c : Fin 8, ((cycleOps sp b val ord c).map
      ((fun e : MicroEntry => e.op.steps) ∘ fun op => { cycle := c, op := op })).sum =
        (cycleOps sp b val ord c).length + 2 * b.delay.toNat := fun c => cycleOps_steps sp b val ord c
  simp only [listSteps, transferOps, bitCycles, List.flatMap_cons, List.flatMap_nil, List.length_append,
    List.length_map, List.length_nil, List.map_append, List.sum_append, List.map_map, List.map_nil, List.sum_nil, h]
  omega

/-! ## What a list reads (R152, R154) -/

/-- The bit cycle, pin and order of each read of a list, in order. -/
def readsOf : List MicroEntry → List (Fin 8 × PinCode × BitOrder)
  | [] => []
  | e :: rest =>
    match e.op with
    | .readBit _ i ord => (e.cycle, i, ord) :: readsOf rest
    | _ => readsOf rest

theorem readsOf_append (p q : List MicroEntry) : readsOf (p ++ q) = readsOf p ++ readsOf q := by
  induction p with
  | nil => rfl
  | cons e p ih => obtain ⟨c, op⟩ := e; cases op <;> simp [readsOf, ih]

/-- The accumulator after a list is made of the values its reads returned, in order (R154). -/
theorem accAfterAll_reads (ops : List MicroEntry) (evs : List BusEvent)
    (h : List.Forall₂ (fun (e : MicroEntry) ev => e.op.shows ev) ops evs) (acc : Byte) :
    (readValues evs).length = (readsOf ops).length ∧
      accAfterAll ops evs acc = ((readsOf ops).zip (readValues evs)).foldl
        (fun a p => accumulate a (pinLevel p.2 p.1.2.1) p.1.1 p.1.2.2) acc := by
  induction h generalizing acc with
  | nil => exact ⟨rfl, rfl⟩
  | @cons e ev ops evs h hs ih =>
    obtain ⟨c, op⟩ := e
    obtain ⟨h1, h2⟩ := ih (accAfter { cycle := c, op := op } ev acc)
    cases op <;> cases ev <;> first
      | exact h.elim
      | (simp only [accAfterAll, readsOf, readValues, List.length_cons, h1, h2, List.zip_cons_cons, List.foldl_cons]
         simp_all [accAfter])

/-- A TRANSFER reads MISO once in each cycle, in order, when MISO is present, and not at all otherwise (R155). -/
theorem readsOf_transferOps (sp : SamplePoint) (b : SeqState) (val : Byte) (ord : BitOrder) :
    readsOf (transferOps sp b val ord) =
      if b.misoPresent then bitCycles.map fun c => (c, b.bind.miso.pin, ord) else [] := by
  have h : ∀ c : Fin 8, readsOf ((cycleOps sp b val ord c).map fun op => { cycle := c, op := op }) =
      if b.misoPresent then [(c, b.bind.miso.pin, ord)] else [] := by
    intro c
    cases h1 : b.misoPresent <;> cases h2 : b.mosiPresent <;> cases sp <;> cases hb : outBit val ord c <;>
      simp [cycleOps, dataOps, sampleOps, pulseOps, writePin, h1, h2, readsOf, hb]
  simp only [transferOps, bitCycles, List.flatMap_cons, List.flatMap_nil, readsOf_append, List.append_nil, h]
  cases b.misoPresent <;> simp

/-! ## What a list writes (R152, R155) -/

/-- A TRANSFER writes CLK's port, and MOSI's when MOSI is present, and no other (R155). -/
theorem writes_transferOps (sp : SamplePoint) (b : SeqState) (val : Byte) (ord : BitOrder) (e : MicroEntry)
    (he : e ∈ transferOps sp b val ord) (a : PortAddr) (i : PinCode)
    (hop : e.op = .setBit a i ∨ e.op = .clearBit a i) :
    a = b.bind.clk.port ∨ (b.mosiPresent = true ∧ a = b.bind.mosi.port) := by
  simp only [transferOps, List.mem_flatMap, List.mem_map] at he
  obtain ⟨c, _, op, hm, rfl⟩ := he
  simp only [cycleOps, List.mem_append] at hm
  have sample : ∀ here, op ∉ sampleOps b ord here := by
    intro here hx
    unfold sampleOps at hx
    split at hx
    · obtain rfl := List.mem_singleton.mp hx
      rcases hop with h | h <;> exact nomatch h
    · cases hx
  rcases hm with ((hm | hm) | hm) | hm
  · unfold dataOps at hm
    split at hm
    · next hp =>
      obtain rfl := List.mem_singleton.mp hm
      refine .inr ⟨hp, ?_⟩
      unfold writePin at hop
      split at hop <;> rcases hop with h | h <;> cases h <;> rfl
    · cases hm
  · exact absurd hm (sample _)
  · left
    simp only [pulseOps, List.mem_cons, List.not_mem_nil, or_false] at hm
    rcases hm with rfl | rfl | rfl | rfl <;> rcases hop with h | h <;> cases h <;> rfl
  · exact absurd hm (sample _)

/-! ## What a list leaves on a pin, under plain registers (R156) -/

theorem binding_eq_iff (bd : Binding) (a : PortAddr) (i : PinCode) :
    bd = { port := a, pin := i } ↔ bd.port = a ∧ bd.pin = i := by
  cases bd; simp

theorem pinAfterAll_append (a : PortAddr) (i : PinCode) (p q : List MicroEntry) (level : Bool) :
    pinAfterAll a i (p ++ q) level = pinAfterAll a i q (pinAfterAll a i p level) := by
  simp [pinAfterAll]

theorem pinAfterAll_cycle (sp : SamplePoint) (b : SeqState) (val : Byte) (ord : BitOrder) (c : Fin 8) (a : PortAddr)
    (i : PinCode) (level : Bool) :
    pinAfterAll a i ((cycleOps sp b val ord c).map fun op => { cycle := c, op := op }) level =
      if b.bind.clk = { port := a, pin := i } then false
      else if b.mosiPresent ∧ b.bind.mosi = { port := a, pin := i } then outBit val ord c else level := by
  simp only [binding_eq_iff]
  have pulse : ∀ l, pinAfterAll a i ((pulseOps b.bind.clk b.delay).map fun op => { cycle := c, op := op }) l =
      if b.bind.clk.port = a ∧ b.bind.clk.pin = i then false else l := by
    intro l
    simp only [pulseOps, List.map_cons, List.map_nil, pinAfterAll, List.foldl_cons, List.foldl_nil, pinAfter]
    split <;> rfl
  have sample : ∀ here l, pinAfterAll a i ((sampleOps b ord here).map fun op => { cycle := c, op := op }) l = l := by
    intro here l
    unfold sampleOps
    split <;> rfl
  have data : ∀ l, pinAfterAll a i ((dataOps b (outBit val ord c)).map fun op => { cycle := c, op := op }) l =
      if b.mosiPresent ∧ b.bind.mosi.port = a ∧ b.bind.mosi.pin = i then outBit val ord c else l := by
    intro l
    cases h2 : b.mosiPresent with
    | false => simp [dataOps, h2, pinAfterAll]
    | true =>
      cases hb : outBit val ord c <;>
        simp only [dataOps, h2, if_true, writePin, Bool.false_eq_true, if_false, List.map_cons, List.map_nil,
          pinAfterAll, List.foldl_cons, List.foldl_nil, pinAfter, true_and]
  simp only [cycleOps, List.map_append, pinAfterAll_append, pulse, sample, data]

/-- After a TRANSFER's list: CLK's pin is 0, MOSI's holds the last output bit, every other as before (R156, R241). -/
theorem pinAfterAll_transferOps (sp : SamplePoint) (b : SeqState) (val : Byte) (ord : BitOrder) (a : PortAddr)
    (i : PinCode) (level : Bool) :
    pinAfterAll a i (transferOps sp b val ord) level =
      if b.bind.clk = { port := a, pin := i } then false
      else if b.mosiPresent ∧ b.bind.mosi = { port := a, pin := i } then outBit val ord 7 else level := by
  simp only [transferOps, bitCycles, List.flatMap_cons, List.flatMap_nil, List.append_nil, pinAfterAll_append,
    pinAfterAll_cycle]
  split
  · rfl
  · split <;> rfl

end Sys2Proof.Machine
end

