-- ==== Sys2Proof/Laws/PerInstr.lean ====
section
/-! SUPPORT. Per command: its word matches its row of the opcode map (rule R81). -/

namespace Sys2Proof.Laws.EncodeMatchesRow

/-- The row of the opcode map a command's word belongs to (R81, R86). -/
def row : Instr → Opcode
  | .bind _ _ _ => .bind
  | .init _ _ _ _ _ => .init
  | .isready => .isready
  | .setdelay _ => .setdelay
  | .transfer _ _ => .transfer
  | .trigger => .trigger
  | .writecs _ => .writecs
  | .clear => .transfer

/-- The command's word has its row's OPC, and zero in every reserved bit. -/
def Statement (i : Instr) : Prop := encode i &&& (row i).mask = (row i).pattern

theorem bind (role : Role) (port : PortAddr) (pin : PinCode) : Statement (.bind role port pin) := by
  apply BitVec.eq_of_getLsbD_eq
  intro i hi
  rw [BitVec.getLsbD_and, encode_bind_bit]
  simp only [BitVec.getLsbD_append, row, Opcode.mask, Opcode.pattern]
  interval_cases i <;> simp

theorem init (port : PortAddr) (mosiPin misoPin clkPin selPin : PinCode) :
    Statement (.init port mosiPin misoPin clkPin selPin) := by
  apply BitVec.eq_of_getLsbD_eq
  intro i hi
  rw [BitVec.getLsbD_and, encode_init_bit]
  simp only [BitVec.getLsbD_append, row, Opcode.mask, Opcode.pattern]
  interval_cases i <;> simp

theorem isready : Statement .isready := rfl

theorem setdelay (ticks : Ticks) : Statement (.setdelay ticks) := by
  apply BitVec.eq_of_getLsbD_eq
  intro i hi
  rw [BitVec.getLsbD_and, encode_setdelay_bit]
  simp only [BitVec.getLsbD_append, row, Opcode.mask, Opcode.pattern]
  interval_cases i <;> simp

theorem transfer (val : Byte) (ord : BitOrder) : Statement (.transfer val ord) := by
  apply BitVec.eq_of_getLsbD_eq
  intro i hi
  rw [BitVec.getLsbD_and, encode_transfer_bit]
  simp only [BitVec.getLsbD_append, row, Opcode.mask, Opcode.pattern]
  interval_cases i <;> simp

theorem trigger : Statement .trigger := rfl

theorem writecs (lvl : Bool) : Statement (.writecs lvl) := by cases lvl <;> rfl

theorem clear : Statement .clear := rfl

end Sys2Proof.Laws.EncodeMatchesRow
end

