-- ==== Sys2Proof/Tests/Slice0.lean ====
section
/-! SUPPORT. Tests on fixed values, their expected results taken from the spec's own tables and vectors, and one witness
for every statement that has hypotheses. -/

namespace Sys2Proof.Tests

open Sys2Proof.Machine

/-! ## Small states -/

/-- A state whose block is bound as one INIT on port 0x010 binds it (R104). -/
def bound (m n c l : PinCode) : State :=
  { State.reset with
    blk := { SeqState.reset with
      bind := { mosi := { port := 0x010#12, pin := m }, miso := { port := 0x010#12, pin := n },
                clk := { port := 0x010#12, pin := c }, sel := { port := 0x010#12, pin := l } }
      initstat := 0b111#3 } }

/-- A running command with a list of micro-operations. -/
def running (ops : List MicroOp) (ports : Memory) : State :=
  { bound 0#4 15#4 2#4 1#4 with
    blk := { (bound 0#4 15#4 2#4 1#4).blk with busy := true, cmd := 0x00000005#32, ops := selectEntries ops }
    ports := ports }

/-- An idle machine whose host offers a word. -/
def offering (w : Word) : State := { State.reset with offered := [w] }

/-- The outcome has a next state with a property, from a check that can be evaluated. -/
theorem exists_next (o : Host.Outcome State Fault Refusal) (p : State → Bool) (h : nextSatisfies o p = true) :
    ∃ t, o = .next t ∧ p t = true := by
  cases o with
  | next t => exact ⟨t, rfl, h⟩
  | fault f => exact nomatch h
  | refused r => exact nomatch h

/-! ## Well-formedness -/

theorem test_wf_refuses_transfer_zero_lsb : (Instr.transfer 0x00#8 .lsbFirst).wellFormed = false := by decide

theorem test_wf_accepts_transfer_zero_msb : (Instr.transfer 0x00#8 .msbFirst).wellFormed = true := by decide

/-! ## Decoding: words of R88, and the refusals of vectors DEC-1..DEC-11 -/

theorem test_decode_bind : decodeTableWord 32 0x01000221 = some (.bind .clk 0x010#12 2#4) := by decide

theorem test_decode_bind_nopin : decodeTableWord 32 0x010001F1 = some (.bind .miso 0x010#12 15#4) := by decide

theorem test_decode_init : decodeTableWord 32 0x02065432 = some (.init 0x020#12 3#4 4#4 5#4 6#4) := by decide

theorem test_decode_isready : decodeTableWord 32 0x00000003 = some .isready := by decide

theorem test_decode_setdelay_negative : decodeTableWord 32 0xFFFB0004 = some (.setdelay 0xFFFB#16) := by decide

theorem test_decode_transfer_msb : decodeTableWord 32 0x0000B205 = some (.transfer 0xB2#8 .msbFirst) := by decide

theorem test_decode_transfer_lsb : decodeTableWord 32 0x00005A15 = some (.transfer 0x5A#8 .lsbFirst) := by decide

theorem test_decode_clear : decodeTableWord 32 0x00000015 = some .clear := by decide

theorem test_decode_trigger : decodeTableWord 32 0x00000006 = some .trigger := by decide

theorem test_decode_writecs : decodeTableWord 32 0x00000017 = some (.writecs true) := by decide

theorem test_decode_zero_refused : decodeWord 0x00000000#32 = .error (.reservedOpcode 0x0#4) := by rfl

theorem test_decode_opcode_f_refused : decodeWord 0x0000000F#32 = .error (.reservedOpcode 0xF#4) := by rfl

theorem test_decode_bind_bit_10_refused : decodeWord 0x00000401#32 = .error (.reservedBit 0x1#4) := by rfl

theorem test_decode_transfer_bit_16_refused : decodeWord 0x00010005#32 = .error (.reservedBit 0x5#4) := by rfl

theorem test_decode_writecs_bit_31_refused : decodeWord 0x80000007#32 = .error (.reservedBit 0x7#4) := by rfl

theorem test_decode_short_refused : decode [0x03#8, 0x00#8, 0x00#8] = .error .truncated := by rfl

/-- Byte 0 of a word on a byte-wide link is its bits 7:0 (R59). -/
theorem test_decode_little_endian :
    decode [0x05#8, 0xB2#8, 0x00#8, 0x00#8, 0x03#8] = .ok (.transfer 0xB2#8 .msbFirst, [0x03#8]) := by rfl

/-! ## The assembler (R85..R88) -/

theorem test_assemble_init : assembleText "init 0x010, 0, nopin, 2, 1" = some 0x01012F02#32 := by decide

theorem test_assemble_setdelay : assembleText "SetDelay -5" = some 0xFFFB0004#32 := by decide

theorem test_assemble_refuses_pin_9 : assembleText "bind clk, 0x010, 9" = none := by decide

theorem test_disassemble_pin_9 : (disassemble 0x01000291#32).text = ".word 0x01000291".toList := by decide

theorem test_disassemble_clear : (disassemble 0x00000015#32).text = "clear".toList := by decide

/-! ## One step of each command (vectors CFG, DEC, TR, SEL) -/

/-- CFG-2. -/
theorem test_bind_clk : nextSatisfies (step (offering 0x01000271#32)) (fun t =>
    hostRead 6#4 t == 0x01000070#32 && hostRead 3#4 t == 0b010#32 && hostRead 0#4 t == 0#32) = true := by decide

/-- CFG-5. -/
theorem test_bind_clk_nopin : nextSatisfies (step (offering 0x010002F1#32)) (fun t =>
    hostRead 6#4 t == 0x000000F0#32 && hostRead 3#4 t == 0#32 && hostRead 0#4 t == 2#32) = true := by decide

/-- CFG-13. -/
theorem test_init : nextSatisfies (step (offering 0x02065432#32)) (fun t =>
    hostRead 4#4 t == 0x02000030#32 && hostRead 5#4 t == 0x02000040#32 && hostRead 6#4 t == 0x02000050#32 &&
      hostRead 7#4 t == 0x02000060#32 && hostRead 3#4 t == 0b111#32) = true := by decide

/-- CFG-11. -/
theorem test_init_pin_9 : nextSatisfies (exec (.init 0x010#12 9#4 15#4 2#4 1#4) (bound 0#4 15#4 2#4 1#4)) (fun t =>
    t.blk.bind == (bound 0#4 15#4 2#4 1#4).blk.bind && hostRead 0#4 t == 2#32) = true := by decide

/-- CFG-15. -/
theorem test_isready_at_reset : nextSatisfies (step (offering 0x00000003#32)) (fun t =>
    hostRead 1#4 t == 0x00#32 && hostRead 0#4 t == 0#32) = true := by decide

/-- L1-5, step 4: MISO does not count. -/
theorem test_isready_bound : nextSatisfies (exec .isready (bound 0#4 15#4 2#4 1#4)) (fun t =>
    hostRead 1#4 t == 0x01#32) = true := by decide

/-- CFG-17. -/
theorem test_setdelay_largest : nextSatisfies (step (offering 0x7FFF0004#32)) (fun t =>
    hostRead 2#4 t == 0x7FFF#32 && hostRead 0#4 t == 0#32) = true := by decide

/-- CFG-18. -/
theorem test_setdelay_most_negative : nextSatisfies (step (offering 0x80000004#32)) (fun t =>
    hostRead 2#4 t == 1#32 && hostRead 0#4 t == 0#32) = true := by decide

/-- The first and the eighth cycle of L1-1's list: 0xB2 starts with a 1 and ends with a 0 (R155). -/
theorem test_transfer_list : nextSatisfies (exec (.transfer 0xB2#8 .msbFirst) (bound 0#4 15#4 2#4 1#4)) (fun t =>
    t.blk.ops.length == 40 && t.blk.busy && (t.blk.ops.map MicroEntry.op).take 3 ==
      [.setBit 0x010#12 0#4, .setBit 0x010#12 2#4, .delay 1#16] && (t.blk.ops.map MicroEntry.op)[35]? ==
      some (.clearBit 0x010#12 0#4)) = true := by decide

/-- TR-1. -/
theorem test_transfer_not_ready : nextSatisfies (step (offering 0x0000B205#32)) (fun t =>
    hostRead 0#4 t == 3#32 && t.trace == []) = true := by decide

/-- TR-5's order of accumulation, one cycle: a draw of 1 on pin 3 in cycle 1 after a 1 (R154). -/
theorem test_readbit_accumulates : nextSatisfies (step { running [] [] with
    blk := { (running [] []).blk with acc := 0x01#8, ops := [{ cycle := 1, op := .readBit 0x011#12 3#4 .msbFirst }] }
    answers := [.supply 0x08#8] }) (fun t => t.blk.acc == 0x03#8 && t.ports == []) = true := by decide

/-- R160: CLEAR is TRANSFER of 0x00, LSB first, so MOSI is cleared in the first cycle. -/
theorem test_clear_list : nextSatisfies (exec .clear (bound 0#4 15#4 2#4 1#4)) (fun t =>
    t.blk.ops.length == 40 && (t.blk.ops.map MicroEntry.op).head? == some (.clearBit 0x010#12 0#4)) = true := by decide

/-- SEL-1's list. -/
theorem test_trigger_list : nextSatisfies (exec .trigger (bound 0#4 15#4 2#4 1#4)) (fun t =>
    t.blk.ops.map MicroEntry.op == [.setBit 0x010#12 1#4, .delay 1#16, .clearBit 0x010#12 1#4, .delay 1#16]) =
      true := by decide

/-- SEL-3. -/
theorem test_trigger_not_ready : nextSatisfies (step (offering 0x00000006#32)) (fun t =>
    hostRead 0#4 t == 3#32 && t.trace == []) = true := by decide

/-- R184's example: `writecs 0` clears SEL, with no hold. -/
theorem test_writecs_low : nextSatisfies (exec (.writecs false) (bound 0#4 15#4 2#4 1#4)) (fun t =>
    t.blk.ops.map MicroEntry.op == [.clearBit 0x010#12 1#4]) = true := by decide

/-- DEC-5: ISREADY with a reserved bit; RESULT is not written. -/
theorem test_illegal_word : nextSatisfies (step (offering 0x00000013#32)) (fun t =>
    hostRead 0#4 t == 1#32 && hostRead 1#4 t == 0#32) = true := by decide

/-! ## Micro-operations (vectors PRIM) and the other agents -/

/-- PRIM-2: the bit is already set, and the transaction still happens. -/
theorem test_setbit : nextSatisfies (step (running [.setBit 0x010#12 2#4] [(0x010, 0x05#8)])) (fun t =>
    t.ports == [(0x010, 0x05#8)] && t.trace == [.rmw 0x010#12 0x00#8 0x04#8 0x05#8]) = true := by decide

/-- PRIM-3. -/
theorem test_clearbit : nextSatisfies (step (running [.clearBit 0x010#12 2#4] [(0x010, 0x05#8)])) (fun t =>
    t.ports == [(0x010, 0x01#8)]) = true := by decide

/-- PRIM-8: one hold of three ticks. -/
theorem test_delay : nextSatisfies (step (running [.delay 3#16] [])) (fun t =>
    t.blk.holdLeft == 3 && t.trace == [.hold 3#16] && t.blk.busy) = true := by decide

/-- A write that makes a port register read as an unlisted one removes its entry (R50). -/
theorem test_canonical_write : Memory.write [(0x010, 0x04#8), (0x020, 0x01#8)] 0x010 0x00#8 = [(0x020, 0x01#8)] := by
  decide

/-- R230: reset in the middle of a hold. -/
theorem test_reset_turn : nextSatisfies (step { running [.delay 3#16] [(0x010, 0x05#8)] with agenda := [.hostReset] })
    (fun t => t.blk == SeqState.reset && t.ports == [(0x010, 0x05#8)]) = true := by decide

/-- What the host's table word runs first after reset. -/
theorem test_withFetchWord : nextSatisfies (step (State.reset.withFetchWord 32 0x01000221)) (fun t =>
    t.blk.bind.clk == { port := 0x010#12, pin := 2#4 }) = true := by decide

/-! ## Witnesses: a state and operands that meet every hypothesis of a statement -/

/-- Reset meets the invariant's parts that a bound state shares with it. -/
theorem bound_inv (m n c l : PinCode) (h : initPinsLegal m n c l = true) : (bound m n c l).Inv := by
  simp only [initPinsLegal, Bool.and_eq_true] at h
  refine ⟨(by decide : (0#4 : BitVec 4).toNat ≤ 3), (by decide : 1 ≤ (1#16).toNat ∧ (1#16).toNat ≤ 32767),
    (by decide : 0b111#3 = (bound 0#4 0#4 0#4 0#4).blk.bind.initstat), fun r => ?_, fun _ => ⟨rfl, rfl⟩, fun h => (nomatch h), fun _ h => (nomatch h), rfl, Nat.zero_le _, rfl⟩
  cases r <;> simp [Binding.legalFor, Bindings.get, bound, h]

/-- A running TRANSFER's state meets the invariant. -/
theorem running_inv : (running [.setBit 0x010#12 2#4, .delay 1#16] []).Inv := by
  refine ⟨by decide, by decide, rfl, fun r => ?_, fun h => (nomatch h), fun _ => by decide, by decide, rfl,
    by decide, rfl⟩
  cases r <;> decide

theorem witness_DecodeOfEncode :
    (Instr.transfer 0x00#8 .msbFirst).wellFormed = true ∧ Instr.clear.wellFormed = true := by decide

theorem witness_EncodeOfDecode :
    decodeWord 0x00000005#32 = .ok (.transfer 0x00#8 .msbFirst) ∧ decodeWord 0x00000015#32 = .ok .clear := ⟨rfl, rfl⟩

theorem witness_StepRuns :
    (offering 0x00000003#32).agenda = [] ∧ (offering 0x00000003#32).blk.busy = false ∧
      (offering 0x00000003#32).offered = 0x00000003#32 :: [] ∧ decodeWord 0x00000003#32 = .ok .isready ∧
      decodeWord (tableWord 32 3) = .ok .isready := ⟨rfl, rfl, rfl, rfl, rfl⟩

theorem witness_IllegalWord :
    0x00000003#32 &&& Opcode.isready.mask = Opcode.isready.pattern ∧
      (∀ k : Opcode, 0x00010005#32 &&& k.mask ≠ k.pattern) ∧ (offering 0x00010005#32).agenda = [] ∧
      (offering 0x00010005#32).blk.busy = false ∧ (offering 0x00010005#32).offered = 0x00010005#32 :: [] :=
  ⟨rfl, fun k => by cases k <;> decide, rfl, rfl, rfl⟩

theorem witness_BusyBlock :
    ((running [.setBit 0x010#12 2#4] []).agenda = [] ∧ (running [.setBit 0x010#12 2#4] []).blk.busy = true ∧
      ∃ t, step (running [.setBit 0x010#12 2#4] []) = .next t) ∧
      (State.reset.agenda = [] ∧ State.reset.blk.busy = false ∧ State.reset.offered = []) :=
  ⟨⟨rfl, rfl, _, rfl⟩, rfl, rfl, rfl⟩

theorem witness_ConfigurationTouchesNoPort : ∃ ticks, Instr.setdelay 0x8000#16 = .setdelay ticks := ⟨_, rfl⟩

theorem witness_BindRecords :
    ((7#4 : PinCode).toNat ≤ 7 ∨ (7#4 = 15#4 ∧ (Role.clk = .mosi ∨ Role.clk = .miso))) ∧
      ((15#4 : PinCode).toNat ≤ 7 ∨ (15#4 = 15#4 ∧ (Role.miso = .mosi ∨ Role.miso = .miso))) := by decide

/-- For InitBindsAllRoles and InitEqualsFourBinds. -/
theorem witness_Init :
    ((7#4 : PinCode).toNat ≤ 7 ∨ 7#4 = 15#4) ∧ ((15#4 : PinCode).toNat ≤ 7 ∨ 15#4 = 15#4) ∧ (0#4 : PinCode).toNat ≤ 7 ∧
      (7#4 : PinCode).toNat ≤ 7 := by decide

theorem witness_RejectedPin :
    (∃ role port pin, Instr.bind .mosi 0x010#12 14#4 = .bind role port pin ∧ 7 < pin.toNat ∧
      (pin = 15#4 → role = .clk ∨ role = .sel)) ∧
    (∃ role port pin, Instr.bind .clk 0x010#12 15#4 = .bind role port pin ∧ 7 < pin.toNat ∧
      (pin = 15#4 → role = .clk ∨ role = .sel)) ∧
    (∃ port m n c l, Instr.init 0x010#12 8#4 15#4 2#4 1#4 = .init port m n c l ∧
      ((7 < m.toNat ∧ m ≠ 15#4) ∨ (7 < n.toNat ∧ n ≠ 15#4) ∨ 7 < c.toNat ∨ 7 < l.toNat)) :=
  ⟨⟨_, _, _, rfl, by decide, by decide⟩, ⟨_, _, _, rfl, by decide, by decide⟩,
    ⟨_, _, _, _, _, rfl, by decide⟩⟩

theorem witness_Readiness :
    (bound 0#4 15#4 2#4 1#4).Inv ∧ ∃ t, exec .isready (bound 0#4 15#4 2#4 1#4) = .next t :=
  ⟨bound_inv _ _ _ _ (by decide), _, rfl⟩

theorem witness_Setdelay :
    (1 ≤ (1#16 : Ticks).toNat ∧ (1#16 : Ticks).toNat ≤ 32767) ∧
      (1 ≤ (0x7FFF#16 : Ticks).toNat ∧ (0x7FFF#16 : Ticks).toNat ≤ 32767) ∧
      ((0#16 : Ticks).toNat = 0 ∨ 32768 ≤ (0#16 : Ticks).toNat) ∧
      ((0x8000#16 : Ticks).toNat = 0 ∨ 32768 ≤ (0x8000#16 : Ticks).toNat) := by decide

/-- For TransferLoadsItsList, TransferCompletesWithTheBitsRead, PinLevelsAfterTransfer, HighPhaseShowsTheBit and
WriteOnlyTransferReturnsZero: MOSI present, MISO absent. -/
theorem witness_Transfer :
    IsTransfer (.transfer 0xB2#8 .msbFirst) 0xB2#8 .msbFirst ∧ IsTransfer .clear 0x00#8 .lsbFirst ∧
      (bound 0#4 15#4 2#4 1#4).Inv ∧ (bound 0#4 15#4 2#4 1#4).blk.busy = false ∧ (bound 0#4 15#4 2#4 1#4).Quiet ∧
      (bound 0#4 15#4 2#4 1#4).agenda = [] ∧ (bound 0#4 15#4 2#4 1#4).answered = true ∧
      (bound 0#4 15#4 2#4 1#4).blk.initstat = 0b111#3 ∧
      ¬ ((bound 0#4 15#4 2#4 1#4).blk.bind.miso.pin ≠ 15#4 ∧ (bound 0#4 15#4 2#4 1#4).blk.bind.miso.port = 0#12) ∧
      (bound 0#4 15#4 2#4 1#4).blk.bind.mosi.pin ≠ 15#4 ∧
      (bound 0#4 15#4 2#4 1#4).blk.bind.mosi ≠ (bound 0#4 15#4 2#4 1#4).blk.bind.clk ∧
      (bound 0#4 15#4 2#4 1#4).blk.bind.miso.pin = 15#4 :=
  ⟨.inl rfl, .inr ⟨rfl, rfl, rfl⟩, bound_inv _ _ _ _ (by decide), rfl, ⟨rfl, rfl⟩, rfl, rfl, rfl, by decide, by decide,
    by decide, rfl⟩

/-- A check that the list left after some steps starts with an entry gives the state and the rest of the list. -/
theorem exists_head (n : Nat) (t0 : State) (e : MicroEntry)
    (h : nextSatisfies (Host.Core.run Sys2Proof.core n t0) (fun u => u.blk.ops.head? == some e) = true) :
    ∃ u rest, Steps n t0 u ∧ u.blk.ops = e :: rest := by
  obtain ⟨u, hu, hp⟩ := exists_next (Host.Core.run Sys2Proof.core n t0) _ h
  cases ho : u.blk.ops with
  | nil => rw [ho] at hp; exact nomatch hp
  | cons e' rest =>
    rw [ho] at hp
    exact ⟨u, rest, hu, by rw [ho, Option.some.inj (eq_of_beq hp)]⟩

/-- HighPhaseShowsTheBit's inner hypotheses, MOSI present: three steps in, the clock fall of cycle 0 heads the list. -/
theorem witness_HighPhase_mosi :
    ∃ t0, exec (.transfer 0xB2#8 .msbFirst) (bound 0#4 15#4 2#4 1#4) = .next t0 ∧ 3 < listSteps t0.blk.ops ∧
      ∃ u rest, Steps 3 t0 u ∧
        u.blk.ops = { cycle := 0, op := .clearBit (0x010#12 : PortAddr) (2#4 : PinCode) } :: rest :=
  ⟨_, rfl, by decide, exists_head 3 (acceptTransfer (encode (.transfer 0xB2#8 .msbFirst)) 0xB2#8 .msbFirst
    (bound 0#4 15#4 2#4 1#4)) { cycle := 0, op := .clearBit 0x010#12 2#4 } (by decide)⟩

/-- The same with MOSI absent and the binding premise met: two steps in, in the hold before the clock fall of cycle 0. -/
theorem witness_HighPhase_bare :
    (bound 15#4 15#4 2#4 1#4).blk.bind.mosi ≠ (bound 15#4 15#4 2#4 1#4).blk.bind.clk ∧
      ∃ t0, exec .clear (bound 15#4 15#4 2#4 1#4) = .next t0 ∧ 2 < listSteps t0.blk.ops ∧
        ∃ u rest, Steps 2 t0 u ∧
          u.blk.ops = { cycle := 0, op := .clearBit (0x010#12 : PortAddr) (2#4 : PinCode) } :: rest :=
  ⟨by decide, _, rfl, by decide, exists_head 2 (acceptTransfer (encode .clear) 0x00#8 .lsbFirst
    (bound 15#4 15#4 2#4 1#4)) { cycle := 0, op := .clearBit 0x010#12 2#4 } (by decide)⟩

/-- A ready block whose MISO has a pin and the null port (TR-2). -/
def misoAtNull : State :=
  { bound 0#4 15#4 2#4 1#4 with
    blk := { (bound 0#4 15#4 2#4 1#4).blk with
      bind := { (bound 0#4 15#4 2#4 1#4).blk.bind with miso := { port := 0#12, pin := 3#4 } } } }

theorem witness_Invalid :
    ((∃ lvl, Instr.writecs true = .writecs lvl) ∧ State.reset.blk.initstat ≠ 0b111#3) ∧
      ((∃ val ord, IsTransfer .clear val ord) ∧ misoAtNull.blk.initstat = 0b111#3 ∧
        misoAtNull.blk.bind.miso.pin ≠ 15#4 ∧ misoAtNull.blk.bind.miso.port = 0#12) :=
  ⟨⟨⟨_, rfl⟩, by decide⟩, ⟨_, _, .inr ⟨rfl, rfl, rfl⟩⟩, rfl, by decide, rfl⟩

/-- For LoopbackReturnsTheByte and SamePinLoopsBack: MISO on MOSI's pin; and the inner premise of the first, for
VAL = 0x00 when every read returns 0x00. -/
theorem witness_Loopback :
    (bound 0#4 0#4 2#4 1#4).Inv ∧ (bound 0#4 0#4 2#4 1#4).blk.busy = false ∧ (bound 0#4 0#4 2#4 1#4).Quiet ∧
      (bound 0#4 0#4 2#4 1#4).answered = true ∧ (bound 0#4 0#4 2#4 1#4).blk.initstat = 0b111#3 ∧
      (bound 0#4 0#4 2#4 1#4).blk.bind.miso.pin ≠ 15#4 ∧ (bound 0#4 0#4 2#4 1#4).blk.bind.miso.port ≠ 0#12 ∧
      (bound 0#4 0#4 2#4 1#4).blk.bind.mosi.pin ≠ 15#4 ∧
      (bound 0#4 0#4 2#4 1#4).blk.bind.miso = (bound 0#4 0#4 2#4 1#4).blk.bind.mosi ∧
      (bound 0#4 0#4 2#4 1#4).blk.bind.clk ≠ (bound 0#4 0#4 2#4 1#4).blk.bind.mosi ∧
      (∀ c : Fin 8, ((readValues (List.replicate 8 (.read 0x010#12 0x00#8))).getD c.val 0x00#8).getLsbD 0 =
        (0x00#8).getLsbD (7 - c.val)) :=
  ⟨bound_inv _ _ _ _ (by decide), rfl, ⟨rfl, rfl⟩, rfl, rfl, by decide, by decide, by decide, rfl, by decide, by decide⟩

theorem witness_BareClocking :
    (bound 15#4 15#4 2#4 1#4).Inv ∧ (bound 15#4 15#4 2#4 1#4).blk.busy = false ∧
      (bound 15#4 15#4 2#4 1#4).agenda = [] ∧ (bound 15#4 15#4 2#4 1#4).answered = true ∧
      (bound 15#4 15#4 2#4 1#4).blk.initstat = 0b111#3 ∧ (bound 15#4 15#4 2#4 1#4).blk.bind.mosi.pin = 15#4 ∧
      (bound 15#4 15#4 2#4 1#4).blk.bind.miso.pin = 15#4 :=
  ⟨bound_inv _ _ _ _ (by decide), rfl, rfl, rfl, rfl, rfl, rfl⟩

/-- For TriggerPulsesSelect and WritecsDrivesSelect, plain registers (the inner premise) and a supplied value. -/
theorem witness_Select :
    (bound 0#4 15#4 2#4 7#4).Inv ∧ (bound 0#4 15#4 2#4 7#4).blk.busy = false ∧ (bound 0#4 15#4 2#4 7#4).agenda = [] ∧
      (bound 0#4 15#4 2#4 7#4).answered = true ∧ (bound 0#4 15#4 2#4 7#4).blk.initstat = 0b111#3 ∧
      (bound 0#4 15#4 2#4 7#4).answers = [] ∧
      ({ bound 0#4 15#4 2#4 7#4 with answers := [.supply 0xFF#8] } : State).answered = true ∧
      (6#4 : PinCode).toNat ≤ 7 ∧
      (bound 0#4 15#4 2#4 7#4).blk.bind.sel ≠ { port := 0x010#12, pin := 6#4 } :=
  ⟨bound_inv _ _ _ _ (by decide), rfl, rfl, rfl, rfl, rfl, rfl, by decide, by decide⟩

/-- For SetAndClearDriveOneBit and, with an answer supplied, RmwUsesTheSuppliedValue. -/
theorem witness_Rmw :
    (running [.clearBit 0xFFF#12 7#4] [(0xFFF, 0x7F#8)]).ports.wf = true ∧
      (running [.clearBit 0xFFF#12 7#4] [(0xFFF, 0x7F#8)]).Quiet ∧
      (running [.clearBit 0xFFF#12 7#4] [(0xFFF, 0x7F#8)]).blk.busy = true ∧
      (running [.clearBit 0xFFF#12 7#4] [(0xFFF, 0x7F#8)]).blk.holdLeft = 0 ∧
      (running [.clearBit 0xFFF#12 7#4] [(0xFFF, 0x7F#8)]).blk.ops =
        { cycle := 0, op := .clearBit 0xFFF#12 7#4 } :: [] ∧
      ({ running [.clearBit 0xFFF#12 7#4] [] with answers := [.supply 0xFF#8] } : State).answers = .supply 0xFF#8 :: [] ∧
      (0xFFF#12 : PortAddr) ≠ 0#12 ∧ (7#4 : PinCode).toNat ≤ 7 :=
  ⟨by decide, ⟨rfl, rfl⟩, rfl, rfl, rfl, rfl, by decide, by decide⟩

theorem witness_ReadBit :
    (running [.readBit 0x001#12 0#4 .lsbFirst] []).agenda = [] ∧
      (running [.readBit 0x001#12 0#4 .lsbFirst] []).blk.busy = true ∧
      (running [.readBit 0x001#12 0#4 .lsbFirst] []).blk.holdLeft = 0 ∧
      (running [.readBit 0x001#12 0#4 .lsbFirst] []).blk.ops =
        { cycle := 0, op := .readBit 0x001#12 0#4 .lsbFirst } :: [] ∧
      (0x001#12 : PortAddr) ≠ 0#12 ∧ (0#4 : PinCode).toNat ≤ 7 ∧
      ((running [.readBit 0x001#12 0#4 .lsbFirst] []).answers = [] ∧
        0x00#8 = (running [.readBit 0x001#12 0#4 .lsbFirst] []).ports.read 1) :=
  ⟨rfl, rfl, rfl, rfl, by decide, by decide, rfl, rfl⟩

/-- Both ends of the ticks waited: none and all. -/
theorem witness_Hold :
    (running [.delay 3#16] []).agenda = [] ∧ (running [.delay 3#16] []).blk.busy = true ∧
      (running [.delay 3#16] []).blk.holdLeft = 0 ∧
      (running [.delay 3#16] []).blk.ops = { cycle := 0, op := .delay 3#16 } :: [] ∧ 0 ≤ (3#16 : Ticks).toNat ∧
      3 ≤ (3#16 : Ticks).toNat :=
  ⟨rfl, rfl, rfl, rfl, by decide, by decide⟩

theorem witness_Silent :
    ∃ s : State, s.Inv ∧ s.agenda = [] ∧ s.answers = .silent :: [] ∧ s.blk.busy = true ∧ s.blk.holdLeft = 0 ∧
      s.blk.ops = { cycle := 0, op := .setBit 0x010#12 2#4 } :: { cycle := 0, op := .delay 1#16 } :: [] ∧
      ∀ n, (MicroOp.setBit 0x010#12 2#4) ≠ .delay n := by
  refine ⟨{ running [.setBit 0x010#12 2#4, .delay 1#16] [] with answers := [.silent] }, ?_, rfl, rfl, rfl, rfl, rfl,
    fun n h => (nomatch h)⟩
  obtain ⟨h1, h2, h3, h4, h5, h6, h7, h8, h9, h10⟩ := running_inv
  exact ⟨h1, h2, h3, h4, h5, h6, h7, h8, h9, h10⟩

/-- For StepKeepsTheInvariant, StepNeverStops and EveryRunIsSafe: a running state that steps. -/
theorem witness_Inv :
    (running [.setBit 0x010#12 2#4, .delay 1#16] []).Inv ∧
      ∃ t, step (running [.setBit 0x010#12 2#4, .delay 1#16] []) = .next t :=
  ⟨running_inv, _, rfl⟩

theorem witness_EveryCommandEnds :
    (bound 15#4 7#4 0#4 1#4).Inv ∧ (bound 15#4 7#4 0#4 1#4).blk.busy = false ∧ (bound 15#4 7#4 0#4 1#4).agenda = [] ∧
      (bound 15#4 7#4 0#4 1#4).answered = true :=
  ⟨bound_inv _ _ _ _ (by decide), rfl, rfl, rfl⟩

theorem witness_ResetTurn :
    ({ running [.delay 3#16] [] with agenda := [.hostReset, .stall] } : State).agenda = .hostReset :: [.stall] := rfl

theorem witness_HostRead : 8 ≤ (8#4 : BitVec 4).toNat ∧ 8 ≤ (15#4 : BitVec 4).toNat := by decide

theorem witness_WriteBindings :
    ∃ t, step (offering 0x01000221#32) = .next t ∧ t.blk.bind.get .clk ≠ (offering 0x01000221#32).blk.bind.get .clk := by
  obtain ⟨t, h, hp⟩ := exists_next (step (offering 0x01000221#32))
    (fun t => t.blk.bind.get .clk != (offering 0x01000221#32).blk.bind.get .clk) (by decide)
  exact ⟨t, h, by simpa using hp⟩

theorem witness_WriteResult :
    ∃ t, step { bound 0#4 15#4 2#4 1#4 with offered := [0x00000003#32] } = .next t ∧
      t.blk.result ≠ (bound 0#4 15#4 2#4 1#4).blk.result := by
  obtain ⟨t, h, hp⟩ := exists_next (step { bound 0#4 15#4 2#4 1#4 with offered := [0x00000003#32] })
    (fun t => t.blk.result != (bound 0#4 15#4 2#4 1#4).blk.result) (by decide)
  exact ⟨t, h, by simpa using hp⟩

theorem witness_WriteDelay :
    ∃ t, step (offering 0x00640004#32) = .next t ∧ t.blk.delay ≠ (offering 0x00640004#32).blk.delay := by
  obtain ⟨t, h, hp⟩ := exists_next (step (offering 0x00640004#32))
    (fun t => t.blk.delay != (offering 0x00640004#32).blk.delay) (by decide)
  exact ⟨t, h, by simpa using hp⟩

theorem witness_Running :
    ∃ t, (running [.delay 3#16] []).blk.busy = true ∧ step (running [.delay 3#16] []) = .next t ∧ t.blk.busy = true := by
  obtain ⟨t, h, hp⟩ := exists_next (step (running [.delay 3#16] [])) (fun t => t.blk.busy) (by decide)
  exact ⟨t, rfl, h, hp⟩

/-- Two running blocks whose buses supply different values to the same read. -/
theorem witness_Steer :
    ∃ s s' t t' : State, s.blk.busy = true ∧ s.agenda = [] ∧ s'.agenda = [] ∧ s.answered = true ∧ s'.answered = true ∧
      s'.blk = { s.blk with acc := s'.blk.acc } ∧ step s = .next t ∧ step s' = .next t' ∧ t.blk.acc ≠ t'.blk.acc := by
  refine ⟨{ running [.readBit 0x011#12 3#4 .msbFirst] [] with answers := [.supply 0x08#8] },
    { running [.readBit 0x011#12 3#4 .msbFirst] [] with answers := [.supply 0xF7#8] }, _, _, rfl, rfl, rfl, rfl, rfl,
    rfl, rfl, rfl, by decide⟩

theorem witness_NoSchedule :
    (∃ t, Steps 3 { running [.setBit 0x010#12 2#4] [] with agenda := [.stall, .sequencer, .hostOffer 0x3#32] } t) ∧
      (∀ turn ∈ [Turn.stall, .sequencer, .hostOffer 0x3#32], turn ≠ .hostReset) ∧
      (running [.setBit 0x010#12 2#4] []).blk.busy = true := by
  obtain ⟨t, h, -⟩ := exists_next (Host.Core.run Sys2Proof.core 3
    { running [.setBit 0x010#12 2#4] [] with agenda := [.stall, .sequencer, .hostOffer 0x3#32] }) (fun _ => true)
    (by decide)
  exact ⟨⟨t, h⟩, by decide, rfl⟩

theorem witness_OffersWritesAndStalls :
    State.reset.ports.wf = true ∧ (0xFFF#12 : PortAddr) ≠ 0#12 ∧
      ({ State.reset with agenda := [.envWrite 0xFFF#12 0x0F#8 0x01#8] } : State).agenda =
        .envWrite 0xFFF#12 0x0F#8 0x01#8 :: [] ∧
      ({ State.reset with agenda := [.hostOffer 0x3#32] } : State).agenda = .hostOffer 0x3#32 :: [] ∧
      ({ State.reset with agenda := [.stall] } : State).agenda = .stall :: [] :=
  ⟨rfl, by decide, rfl, rfl, rfl⟩

end Sys2Proof.Tests
end

section
/-! PROOFS. The turns of the agents around the block: an offer, a stall, and another agent's write (rules R9, R64,
R206, R208). -/

namespace Sys2Proof.Machine

theorem SameOutside.refl (s : State) : SameOutside s s := ⟨rfl, fun _ => rfl, rfl, rfl, rfl, rfl, rfl⟩

/-! ## The step at the head of the agenda -/

theorem step_envWrite (s : State) (a : PortAddr) (clr set : Byte) (rest : List Turn)
    (h : s.agenda = .envWrite a clr set :: rest) :
    step s = .next (envWrite a clr set { s with agenda := rest }) :=
  step_turn s _ rest h

theorem step_hostOffer (s : State) (w : Word) (rest : List Turn) (h : s.agenda = .hostOffer w :: rest) :
    step s = .next (hostOffer w { s with agenda := rest }) :=
  step_turn s _ rest h

theorem step_stall (s : State) (rest : List Turn) (h : s.agenda = .stall :: rest) :
    step s = .next { s with agenda := rest } :=
  step_turn s _ rest h

/-! ## Another agent's write -/

/-- At a port that is not null the port registers alone change (R9, R51). -/
theorem envWrite_of_ne_null (a : PortAddr) (clr set : Byte) (s : State) (ha : a ≠ nullPort) :
    envWrite a clr set s =
      { s with ports := s.ports.write a.toNat (rmwValue (s.ports.read a.toNat) clr set) } :=
  if_neg ha

/-- The register written becomes the read-modify-write of what it held (R55). -/
theorem envWrite_read_same (a : PortAddr) (clr set : Byte) (s : State) (hw : s.ports.wf = true) (ha : a ≠ nullPort) :
    (envWrite a clr set s).ports.read a.toNat = rmwValue (s.ports.read a.toNat) clr set := by
  rw [envWrite_of_ne_null a clr set s ha]
  exact read_write_same s.ports 1 a.toNat _ hw

/-- Every other register stays, whatever the port written. -/
theorem envWrite_read_other (a : PortAddr) (clr set : Byte) (s : State) (b : Nat) (hb : b ≠ a.toNat) :
    (envWrite a clr set s).ports.read b = s.ports.read b := by
  unfold envWrite
  split
  · rfl
  · exact read_write_other s.ports a.toNat b _ hb

/-- Everything but the port registers stays, whatever the port written. -/
theorem envWrite_frame (a : PortAddr) (clr set : Byte) (s : State) :
    envWrite a clr set s = { s with ports := (envWrite a clr set s).ports } := by
  unfold envWrite
  split <;> rfl

/-- Settles O47: the step is the turn at the head of the agenda, and none of the three turns writes the block. -/
theorem offersWritesAndStallsKeepTheBlock : Obligations.OffersWritesAndStallsKeepTheBlock := by
  intro s rest
  refine ⟨fun a clr set hw h ha => ?write, fun w h => ?offer, fun h => ?stall⟩
  case write =>
    refine ⟨_, step_envWrite s a clr set rest h, ?_⟩
    have same := envWrite_read_same a clr set { s with agenda := rest } hw ha
    have other := envWrite_read_other a clr set { s with agenda := rest }
    rw [envWrite_frame]
    exact ⟨rfl, same, other, rfl, rfl, rfl, rfl, rfl⟩
  case offer => exact ⟨_, step_hostOffer s w rest h, rfl, SameOutside.refl _⟩
  case stall => exact ⟨_, step_stall s rest h, rfl, SameOutside.refl _⟩

end Sys2Proof.Machine
end

section
/-! PROOFS. What a step of the machine can do, said once (rules R9, R203, R206, R230): how a command's acceptance leaves
the block, what the block's own step does, and whose turn a step is. -/

namespace Sys2Proof.Machine

/-! ## A command's acceptance -/

/-- How accepting a command can leave the block b: rejected with a status, completed at once, or running with its list
loaded. -/
inductive Accepts (sp : SamplePoint) (b : SeqState) : Instr → SeqState → Prop where
  | rejects (i : Instr) (st : Status) : Accepts sp b i ((b.accept (encode i)).raise st)
  | binds (role : Role) (port : PortAddr) (pin : PinCode) (hpin : pinLegal role pin = true) :
      Accepts sp b (.bind role port pin)
        ((b.accept (encode (.bind role port pin))).recordBinding role port pin).complete
  | inits (port : PortAddr) (m n c l : PinCode) (hpins : initPinsLegal m n c l = true) :
      Accepts sp b (.init port m n c l) ({ b.accept (encode (.init port m n c l)) with
        bind := { mosi := { port := port, pin := m }, miso := { port := port, pin := n },
                  clk := { port := port, pin := c }, sel := { port := port, pin := l } }
        initstat := initstatAfterInit port } : SeqState).complete
  | reports : Accepts sp b .isready ({ b.accept (encode .isready) with
      result := readyByte (b.accept (encode .isready)) } : SeqState).complete
  | storesTicks (ticks : Ticks) (hpos : ticksPositive ticks = true) :
      Accepts sp b (.setdelay ticks)
        ({ b.accept (encode (.setdelay ticks)) with delay := ticks } : SeqState).complete
  | keepsTicks (ticks : Ticks) : Accepts sp b (.setdelay ticks) (b.accept (encode (.setdelay ticks))).complete
  | transfers (i : Instr) (val : Byte) (ord : BitOrder) (hi : IsTransfer i val ord) (hready : b.ready = true)
      (hmiso : b.misoInvalid = false) :
      Accepts sp b i ((b.accept (encode i)).load (transferOps sp (b.accept (encode i)) val ord))
  | triggers (hready : b.ready = true) :
      Accepts sp b .trigger ((b.accept (encode .trigger)).load (selectEntries (pulseOps b.bind.sel b.delay)))
  | drivesSelect (lvl : Bool) (hready : b.ready = true) :
      Accepts sp b (.writecs lvl)
        ((b.accept (encode (.writecs lvl))).load (selectEntries [writePin b.bind.sel lvl]))

/-- The acceptance TRANSFER and CLEAR share (R152, R160). -/
theorem acceptTransfer_accepts (s : State) (i : Instr) (val : Byte) (ord : BitOrder) (hi : IsTransfer i val ord) :
    ∃ b, acceptTransfer (encode i) val ord s = s.withBlk b ∧ Accepts s.cfg.samplePoint s.blk i b := by
  by_cases hinvalid : s.blk.ready = false ∨ s.blk.misoInvalid = true
  · exact ⟨_, acceptTransfer_invalid s _ val ord hinvalid, .rejects i _⟩
  · simp only [not_or, Bool.not_eq_false, Bool.not_eq_true] at hinvalid
    obtain ⟨hready, hmiso⟩ := hinvalid
    exact ⟨_, acceptTransfer_valid s _ val ord hready hmiso, .transfers i val ord hi hready hmiso⟩

/-- Every acceptance answers a next state, and leaves the block in one of the ways of `Accepts` (R204, R206). -/
theorem exec_accepts (i : Instr) (s : State) :
    ∃ b, exec i s = .next (s.withBlk b) ∧ Accepts s.cfg.samplePoint s.blk i b := by
  have transfer (i : Instr) (val : Byte) (ord : BitOrder) (hi : IsTransfer i val ord) :
      ∃ b, exec i s = .next (s.withBlk b) ∧ Accepts s.cfg.samplePoint s.blk i b := by
    obtain ⟨b, hb, hacc⟩ := acceptTransfer_accepts s i val ord hi
    exact ⟨b, by rw [exec_transfer s i val ord hi, hb], hacc⟩
  cases i with
  | bind role port pin =>
    cases h : pinLegal role pin with
    | true => exact ⟨_, exec_bind_legal s role port pin h, .binds role port pin h⟩
    | false => exact ⟨_, exec_bind_illegal s role port pin h, .rejects _ _⟩
  | init port m n c l =>
    cases h : initPinsLegal m n c l with
    | true => exact ⟨_, exec_init_legal s port m n c l h, .inits port m n c l h⟩
    | false => exact ⟨_, exec_init_illegal s port m n c l h, .rejects _ _⟩
  | isready => exact ⟨_, exec_isready s, .reports⟩
  | setdelay ticks =>
    cases h : ticksPositive ticks with
    | true => exact ⟨_, exec_setdelay_positive s ticks h, .storesTicks ticks h⟩
    | false => exact ⟨_, exec_setdelay_nonpositive s ticks h, .keepsTicks ticks⟩
  | transfer val ord => exact transfer _ val ord (.inl rfl)
  | clear => exact transfer _ 0x00#8 .lsbFirst (.inr ⟨rfl, rfl, rfl⟩)
  | trigger =>
    cases h : s.blk.ready with
    | true => exact ⟨_, congrArg _ (acceptSelect_ready s _ _ h), .triggers h⟩
    | false => exact ⟨_, congrArg _ (acceptSelect_notReady s _ _ h), .rejects _ _⟩
  | writecs lvl =>
    cases h : s.blk.ready with
    | true => exact ⟨_, congrArg _ (acceptSelect_ready s _ _ h), .drivesSelect lvl h⟩
    | false => exact ⟨_, congrArg _ (acceptSelect_notReady s _ _ h), .rejects _ _⟩

/-- Acceptance writes RESULT only for ISREADY, which completes with OK (R108). -/
theorem Accepts.result_eq {sp : SamplePoint} {b b' : SeqState} {i : Instr} (h : Accepts sp b i b') :
    b'.result = b.result ∨ (i = .isready ∧ b'.code = 0#4 ∧ b'.busy = false) := by
  cases h with
  | reports => exact .inr ⟨rfl, rfl, rfl⟩
  | _ => exact .inl rfl

/-- Acceptance writes DELAY only for a SETDELAY of a positive operand (R111). -/
theorem Accepts.delay_eq {sp : SamplePoint} {b b' : SeqState} {i : Instr} (h : Accepts sp b i b') :
    b'.delay = b.delay ∨ ∃ ticks, i = .setdelay ticks ∧ ticksPositive ticks = true ∧ b'.delay = ticks := by
  cases h with
  | storesTicks ticks hpos => exact .inr ⟨ticks, rfl, hpos, rfl⟩
  | _ => exact .inl rfl

/-! ## The block's own step -/

/-- All that a step of the block can do, with the guard of each case (R203, R206, R215). -/
inductive BlockStep (s : State) : State → Prop where
  /-- One tick of the hold in progress (R139). -/
  | ticks (hbusy : s.blk.busy = true) (hhold : s.blk.holdLeft ≠ 0) : BlockStep s (tick s)
  /-- The list is all performed: completion (R205). -/
  | completes (hbusy : s.blk.busy = true) (hhold : s.blk.holdLeft = 0) (hops : s.blk.ops = []) :
      BlockStep s (s.withBlk s.blk.finish)
  /-- The next micro-operation is performed (R130). -/
  | performs (e : MicroEntry) (rest : List MicroEntry) (t : State) (ev : BusEvent) (hbusy : s.blk.busy = true)
      (hhold : s.blk.holdLeft = 0) (hops : s.blk.ops = e :: rest) (hperf : Performed e rest s t ev) : BlockStep s t
  /-- The next micro-operation waits for a bus that does not answer (R247). -/
  | waits (e : MicroEntry) (rest : List MicroEntry) (hbusy : s.blk.busy = true) (hhold : s.blk.holdLeft = 0)
      (hops : s.blk.ops = e :: rest) : BlockStep s s
  /-- No word is offered (R215). -/
  | idles (hidle : s.blk.busy = false) (hoff : s.offered = []) : BlockStep s s
  /-- The next word decodes to nothing (R82). -/
  | rejectsWord (w : Word) (words : List Word) (err : DecodeError) (hidle : s.blk.busy = false)
      (hoff : s.offered = w :: words) (hdec : decodeWord w = .error err) :
      BlockStep s (({ s with offered := words } : State).withBlk ((s.blk.accept w).raise .illegalCommand))
  /-- The next word is accepted as its command (R206). -/
  | accepts (w : Word) (words : List Word) (i : Instr) (b : SeqState) (hidle : s.blk.busy = false)
      (hoff : s.offered = w :: words) (hdec : decodeWord w = .ok i) (hacc : Accepts s.cfg.samplePoint s.blk i b) :
      BlockStep s (({ s with offered := words } : State).withBlk b)

/-- A running block's step (R206). -/
theorem blockStep_of_runningStep (s t : State) (hbusy : s.blk.busy = true) (h : runningStep s = .next t) :
    BlockStep s t := by
  by_cases hhold : s.blk.holdLeft = 0
  · cases hops : s.blk.ops with
    | nil =>
      rw [runningStep_finish s hhold hops] at h
      obtain rfl := Host.Outcome.next.inj h
      exact .completes hbusy hhold hops
    | cons e rest =>
      rw [runningStep_micro s e rest hhold hops] at h
      obtain rfl | ⟨ev, hperf⟩ := performMicro_cases e rest s t h
      · exact .waits e rest hbusy hhold hops
      · exact .performs e rest t ev hbusy hhold hops hperf
  · rw [runningStep_tick s hhold] at h
    obtain rfl := Host.Outcome.next.inj h
    exact .ticks hbusy hhold

/-- An idle block's acceptance of a word (R82, R206). -/
theorem blockStep_of_acceptWord (s t : State) (w : Word) (words : List Word) (hidle : s.blk.busy = false)
    (hoff : s.offered = w :: words) (h : acceptWord w { s with offered := words } = .next t) : BlockStep s t := by
  cases hdec : decodeWord w with
  | error err =>
    simp only [acceptWord, hdec, Host.Outcome.next.injEq] at h
    subst h
    exact .rejectsWord w words err hidle hoff hdec
  | ok i =>
    simp only [acceptWord, hdec] at h
    obtain ⟨b, hb, hacc⟩ := exec_accepts i { s with offered := words }
    obtain rfl := Host.Outcome.next.inj (hb.symm.trans h)
    exact .accepts w words i b hidle hoff hdec hacc

/-- Every step of the block that answers a next state is one of `BlockStep`'s cases. -/
theorem blockStep_of_sequencerStep (s t : State) (h : sequencerStep s = .next t) : BlockStep s t := by
  unfold sequencerStep at h
  split at h
  · next hbusy => exact blockStep_of_runningStep s t hbusy h
  · next hidle =>
    rw [Bool.not_eq_true] at hidle
    split at h
    · next hoff =>
      obtain rfl := Host.Outcome.next.inj h
      exact .idles hidle hoff
    · next w words hoff => exact blockStep_of_acceptWord s t w words hidle hoff h

/-- A step of the block takes no turn of the agenda. -/
theorem BlockStep.agenda_eq {s t : State} (h : BlockStep s t) : t.agenda = s.agenda := by
  cases h with
  | performs e rest t ev hbusy hhold hops hperf => exact hperf.agenda
  | _ => rfl

/-- A step of the block only adds to what it has shown (R246). -/
theorem BlockStep.trace_append {s t : State} (h : BlockStep s t) : ∃ evs, t.trace = s.trace ++ evs := by
  cases h with
  | performs e rest t ev hbusy hhold hops hperf => exact ⟨[ev], hperf.trace⟩
  | _ => exact ⟨[], (List.append_nil _).symm⟩

/-! ## A step of the machine -/

/-- The next turn is the block's: none is listed, or the block's own is listed first (R9). -/
def State.BlockTurn (s : State) : Prop := s.agenda = [] ∨ ∃ rest, s.agenda = .sequencer :: rest

/-- What a turn that leaves the block alone does: an offer, another agent's write, or a stall (R9, R64). -/
structure Bystander (s t : State) : Prop where
  blk     : t.blk = s.blk
  trace   : t.trace = s.trace
  agenda  : t.agenda = s.agenda.tail
  portsWf : s.ports.wf = true → t.ports.wf = true

/-- Another agent's write keeps the port registers canonical (R50, R51). -/
theorem envWrite_wf (a : PortAddr) (clr set : Byte) (s : State) (h : s.ports.wf = true) :
    (envWrite a clr set s).ports.wf = true := by
  by_cases ha : a = nullPort
  · simpa [envWrite, ha] using h
  · rw [envWrite_of_ne_null a clr set s ha]
    exact wf_write _ _ _ h ha

/-- A step is reset, a turn that leaves the block alone, or the block's own step (R9, R230). -/
theorem step_cases (s t : State) (h : step s = .next t) :
    (∃ rest, s.agenda = .hostReset :: rest ∧ t = resetBlock { s with agenda := rest }) ∨
      Bystander s t ∨ (s.BlockTurn ∧ BlockStep { s with agenda := s.agenda.tail } t) := by
  cases hag : s.agenda with
  | nil =>
    rw [step_no_agenda s hag] at h
    have hs : ({ s with agenda := ([] : List Turn).tail } : State) = s := by rw [List.tail_nil, ← hag]
    exact .inr (.inr ⟨.inl hag, by rw [hs]; exact blockStep_of_sequencerStep s t h⟩)
  | cons turn rest =>
    rw [step_turn s turn rest hag] at h
    have bystander (u : State) (hu : Host.Outcome.next u = (.next t : Host.Outcome State Fault Refusal))
        (hby : Bystander s u) : Bystander s t := Host.Outcome.next.inj hu ▸ hby
    cases turn with
    | sequencer => exact .inr (.inr ⟨.inr ⟨rest, hag⟩, blockStep_of_sequencerStep _ t h⟩)
    | hostReset => exact .inl ⟨rest, rfl, (Host.Outcome.next.inj h).symm⟩
    | hostOffer w => exact .inr (.inl (bystander _ h ⟨rfl, rfl, by rw [hag]; rfl, id⟩))
    | stall => exact .inr (.inl (bystander _ h ⟨rfl, rfl, by rw [hag]; rfl, id⟩))
    | envWrite a clr set =>
      refine .inr (.inl (bystander _ h ?_))
      have hwf := envWrite_wf a clr set { s with agenda := rest }
      rw [envWrite_frame] at hwf ⊢
      exact ⟨rfl, rfl, by rw [hag]; rfl, hwf⟩

/-- A step takes one turn of the agenda (R9). -/
theorem step_agenda (s t : State) (h : step s = .next t) : t.agenda = s.agenda.tail := by
  obtain ⟨rest, hag, rfl⟩ | hby | ⟨-, hblk⟩ := step_cases s t h
  · simp [resetBlock, hag]
  · exact hby.agenda
  · exact hblk.agenda_eq

/-- A step only adds to what the block has shown (R246). -/
theorem step_trace_append (s t : State) (h : step s = .next t) : ∃ evs, t.trace = s.trace ++ evs := by
  obtain ⟨rest, -, rfl⟩ | hby | ⟨-, hblk⟩ := step_cases s t h
  · exact ⟨[], (List.append_nil _).symm⟩
  · exact ⟨[], by rw [hby.trace, List.append_nil]⟩
  · exact hblk.trace_append

/-- So does any number of steps. -/
theorem steps_trace_append (n : Nat) : ∀ s t : State, Steps n s t → ∃ evs, t.trace = s.trace ++ evs := by
  induction n with
  | zero =>
    intro s t h
    rw [steps_zero] at h
    exact ⟨[], by rw [h, List.append_nil]⟩
  | succ n ih =>
    intro s t h
    obtain ⟨u, hu, ht⟩ := (steps_succ n s t).mp h
    obtain ⟨evs, hevs⟩ := step_trace_append s u hu
    obtain ⟨more, hmore⟩ := ih u t ht
    exact ⟨evs ++ more, by rw [hmore, hevs, List.append_assoc]⟩

end Sys2Proof.Machine
end

section
/-! PROOFS. The invariant of the reachable states: it holds at reset and every step keeps it (rules R22, R24..R26, R30,
R31, R138). -/

namespace Sys2Proof.Machine

/-! ## The invariant, state by state -/

/-- The invariant speaks of the block and of the port registers' canonical form alone. -/
theorem State.Inv.of_blk {s t : State} (h : s.Inv) (hblk : t.blk = s.blk) (hports : t.ports.wf = true) : t.Inv := by
  obtain ⟨hcode, hdelay, hinit, hbind, hidle, hcmd, hops, hbiti, hhold, -⟩ := h
  rw [← hblk] at hcode hdelay hinit hbind hidle hcmd hops hbiti hhold
  exact ⟨hcode, hdelay, hinit, hbind, hidle, hcmd, hops, hbiti, hhold, hports⟩

/-- What the invariant asks of an idle block: its registers, and that nothing is left to perform. -/
theorem inv_of_idle {t : State} (hcode : t.blk.code.toNat ≤ 3)
    (hdelay : 1 ≤ t.blk.delay.toNat ∧ t.blk.delay.toNat ≤ 32767) (hinit : t.blk.initstat = t.blk.bind.initstat)
    (hbind : ∀ r, (t.blk.bind.get r).legalFor r = true) (hbusy : t.blk.busy = false) (hops : t.blk.ops = [])
    (hhold : t.blk.holdLeft = 0) (hports : t.ports.wf = true) : t.Inv where
  codeLegal := hcode
  delayRange := hdelay
  initstatBits := hinit
  bindLegal := hbind
  idleEmpty _ := ⟨hops, hhold⟩
  runningCmd h := by rw [hbusy] at h; exact nomatch h
  opsLegal := by simp [hops]
  bitiHead := by rw [hops]; rfl
  holdRange := by simp [hhold]
  portsWf := hports

/-- Settles O34: the reset block is idle, with null ports and nothing to perform. -/
theorem resetMeetsTheInvariant : Obligations.ResetMeetsTheInvariant :=
  inv_of_idle (by decide) (by decide) rfl (fun r => by cases r <;> rfl) rfl rfl rfl wf_reset

/-! ## What acceptance keeps -/

/-- Every status code is 0..3 (R22, R200). -/
theorem status_code_le (st : Status) : st.code.toNat ≤ 3 := by cases st <;> decide

/-- The invariant of a block that an error or a rejection leaves idle (R203). -/
theorem inv_raise {s : State} (h : s.Inv) (w : Word) (st : Status) :
    (s.withBlk ((s.blk.accept w).raise st)).Inv :=
  inv_of_idle (status_code_le st) h.delayRange h.initstatBits h.bindLegal rfl rfl rfl h.portsWf

/-- A legal pin code makes a legal binding, whatever the port (R26). -/
theorem legalFor_of_pinLegal (r : Role) (port : PortAddr) (pin : PinCode) (h : pinLegal r pin = true) :
    ({ port := port, pin := pin } : Binding).legalFor r = true := by
  simp [Binding.legalFor, h]

/-- A table of legal bindings stays one when a role takes a legal binding (R26, R101). -/
theorem legalFor_set (b : Bindings) (r : Role) (v : Binding) (hb : ∀ q, (b.get q).legalFor q = true)
    (hv : v.legalFor r = true) (q : Role) : ((b.set r v).get q).legalFor q = true := by
  by_cases hq : q = r
  · subst hq
    rwa [bindings_get_set_same]
  · rw [bindings_get_set_other b r q v hq]
    exact hb q

/-- Replacing one of three INITSTAT bits (R25). -/
theorem withInitBit_append : ∀ sel clk mosi p : Bool,
    let v := BitVec.ofBool sel ++ BitVec.ofBool clk ++ BitVec.ofBool mosi
    withInitBit v 0 p = BitVec.ofBool sel ++ BitVec.ofBool clk ++ BitVec.ofBool p ∧
      withInitBit v 1 p = BitVec.ofBool sel ++ BitVec.ofBool p ++ BitVec.ofBool mosi ∧
      withInitBit v 2 p = BitVec.ofBool p ++ BitVec.ofBool clk ++ BitVec.ofBool mosi := by
  decide

/-- BIND's INITSTAT bit keeps INITSTAT in step with the table (R25, R101). -/
theorem initstatAfterBind_eq (b : Bindings) (r : Role) (port : PortAddr) (pin : PinCode) :
    initstatAfterBind b.initstat r port = (b.set r { port := port, pin := pin }).initstat := by
  obtain ⟨hmosi, hclk, hsel⟩ := withInitBit_append (b.sel.port != nullPort) (b.clk.port != nullPort)
    (b.mosi.port != nullPort) (port != nullPort)
  cases r with
  | mosi => exact hmosi
  | miso => rfl
  | clk => exact hclk
  | sel => exact hsel

/-- INIT's INITSTAT is that of a table with one port in every role (R25, R104). -/
theorem initstatAfterInit_eq (port : PortAddr) (m n c l : PinCode) :
    initstatAfterInit port =
      ({ mosi := { port := port, pin := m }, miso := { port := port, pin := n },
         clk := { port := port, pin := c }, sel := { port := port, pin := l } } : Bindings).initstat := by
  unfold initstatAfterInit Bindings.initstat
  split
  · next h => rw [bne_eq_false_iff_eq.mpr h]; rfl
  · next h => rw [bne_iff_ne.mpr h]; rfl

/-- The word of a TRANSFER or CLEAR decodes to one of the two again (R81, R160). -/
theorem cmdRuns_of_isTransfer (i : Instr) (val : Byte) (ord : BitOrder) (hi : IsTransfer i val ord) :
    cmdRuns (encode i) = true := by
  have transfer (v : Byte) (o : BitOrder) : cmdRuns (encode (.transfer v o)) = true := by
    rw [cmdRuns, decodeWord_of_row _ .transfer (Sys2Proof.Laws.EncodeMatchesRow.transfer v o)]
    simp only [Opcode.command, Instr.canonical]
    split <;> rfl
  obtain rfl | ⟨rfl, -, -⟩ := hi
  · exact transfer val ord
  · exact transfer 0x00#8 .lsbFirst

/-- The head's cycle is the same from any cycle it was computed from (R30). -/
theorem headCycle_headCycle (ops : List MicroEntry) (c : Fin 8) :
    headCycle ops c = headCycle ops (headCycle ops c) := by
  cases ops <;> rfl

/-- The invariant of a block that has just loaded a list of legal micro-operations (R31, R206). -/
theorem inv_load {s : State} (h : s.Inv) (w : Word) (ops : List MicroEntry) (hcmd : cmdRuns w = true)
    (hops : ∀ e ∈ ops, e.op.legal s.blk.delay = true) : (s.withBlk ((s.blk.accept w).load ops)).Inv where
  codeLegal := h.codeLegal
  delayRange := h.delayRange
  initstatBits := h.initstatBits
  bindLegal := h.bindLegal
  idleEmpty hbusy := nomatch hbusy
  runningCmd _ := hcmd
  opsLegal := hops
  bitiHead := headCycle_headCycle ops 0
  holdRange := Nat.zero_le _
  portsWf := h.portsWf

/-- Acceptance by an idle block keeps the invariant. -/
theorem Accepts.inv {s : State} {i : Instr} {b : SeqState} (h : s.Inv) (hidle : s.blk.busy = false)
    (hacc : Accepts s.cfg.samplePoint s.blk i b) : (s.withBlk b).Inv := by
  obtain ⟨hops, hhold⟩ := h.idleEmpty hidle
  cases hacc with
  | rejects i st => exact inv_raise h _ st
  | binds role port pin hpin =>
    refine inv_of_idle (status_code_le .ok) h.delayRange ?_ ?_ rfl hops hhold h.portsWf
    · simp only [withBlk_blk, complete_initstat, complete_bind, record_initstat, record_bind, accept_initstat,
        accept_bind, h.initstatBits]
      exact initstatAfterBind_eq s.blk.bind role port pin
    · exact legalFor_set s.blk.bind role _ h.bindLegal (legalFor_of_pinLegal role port pin hpin)
  | inits port m n c l hpins =>
    refine inv_of_idle (status_code_le .ok) h.delayRange (initstatAfterInit_eq port m n c l) ?_ rfl hops hhold h.portsWf
    simp only [initPinsLegal, Bool.and_eq_true] at hpins
    obtain ⟨⟨⟨hm, hn⟩, hc⟩, hl⟩ := hpins
    intro r
    cases r with
    | mosi => exact legalFor_of_pinLegal .mosi port m hm
    | miso => exact legalFor_of_pinLegal .miso port n hn
    | clk => exact legalFor_of_pinLegal .clk port c hc
    | sel => exact legalFor_of_pinLegal .sel port l hl
  | reports =>
    exact inv_of_idle (status_code_le .ok) h.delayRange h.initstatBits h.bindLegal rfl hops hhold h.portsWf
  | storesTicks ticks hpos =>
    have hdelay := (ticksPositive_iff ticks).mp hpos
    exact inv_of_idle (status_code_le .ok) hdelay h.initstatBits h.bindLegal rfl hops hhold h.portsWf
  | keepsTicks ticks =>
    exact inv_of_idle (status_code_le .ok) h.delayRange h.initstatBits h.bindLegal rfl hops hhold h.portsWf
  | transfers i val ord hi hready hmiso =>
    exact inv_load h _ _ (cmdRuns_of_isTransfer i val ord hi)
      (legal_transferOps s h ((ready_iff_initstat _).mp hready) hmiso _ val ord)
  | triggers hready =>
    obtain ⟨-, -, hport, hpin⟩ := ready_pins s h ((ready_iff_initstat _).mp hready)
    exact inv_load h _ _ rfl (legal_selectEntries _ _ (legal_pulseOps _ _ hport hpin))
  | drivesSelect lvl hready =>
    obtain ⟨-, -, hport, hpin⟩ := ready_pins s h ((ready_iff_initstat _).mp hready)
    exact inv_load h _ _ (by cases lvl <;> rfl)
      (legal_selectEntries _ _ (by simpa using legal_writePin s.blk.delay _ lvl hport hpin))

/-! ## What the steps of a running block keep -/

/-- A legal micro-operation leaves HOLDLEFT as it is or loads DELAY (R139). -/
theorem holdAfter_le (e : MicroEntry) (d : Ticks) (k : Nat) (hlegal : e.op.legal d = true) (hk : k ≤ d.toNat) :
    holdAfter e k ≤ d.toNat := by
  obtain ⟨c, op⟩ := e
  cases op with
  | delay n =>
    simp only [MicroOp.legal, beq_iff_eq] at hlegal
    exact le_of_eq (congrArg BitVec.toNat hlegal)
  | _ => exact hk

/-- The event of a legal micro-operation keeps the port registers canonical (R51, R55). -/
theorem portsAfter_wf (op : MicroOp) (d : Ticks) (ev : BusEvent) (m : Memory) (hlegal : op.legal d = true)
    (hshows : op.shows ev) (hm : m.wf = true) : (portsAfter ev m).wf = true := by
  cases ev with
  | read a v => exact hm
  | hold n => exact hm
  | rmw a clr set left =>
    have ha : a ≠ nullPort := by
      cases op with
      | setBit b i => simp only [MicroOp.legal, Bool.and_eq_true, bne_iff_ne] at hlegal; exact hshows.1 ▸ hlegal.1
      | clearBit b i => simp only [MicroOp.legal, Bool.and_eq_true, bne_iff_ne] at hlegal; exact hshows.1 ▸ hlegal.1
      | readBit b i ord => exact hshows.elim
      | delay n => exact hshows.elim
    exact wf_write m a left hm ha

/-- Performing the head of the list keeps the invariant. -/
theorem Performed.inv {e : MicroEntry} {rest : List MicroEntry} {s t : State} {ev : BusEvent} (h : s.Inv)
    (hbusy : s.blk.busy = true) (hops : s.blk.ops = e :: rest) (hp : Performed e rest s t ev) : t.Inv := by
  have hlegal := h.opsLegal
  rw [hops] at hlegal
  have hhead := hlegal e List.mem_cons_self
  have hwf : t.ports.wf = true := by
    rw [hp.ports]; exact portsAfter_wf e.op s.blk.delay ev s.ports hhead hp.shows h.portsWf
  refine State.Inv.of_blk (s := s.withBlk t.blk) ?_ rfl hwf
  rw [hp.blk]
  exact {
    codeLegal := h.codeLegal
    delayRange := h.delayRange
    initstatBits := h.initstatBits
    bindLegal := h.bindLegal
    idleEmpty := fun hidle => absurd (hbusy.symm.trans hidle) Bool.noConfusion
    runningCmd := h.runningCmd
    opsLegal := fun x hx => hlegal x (List.mem_cons_of_mem e hx)
    bitiHead := headCycle_headCycle rest s.blk.biti
    holdRange := holdAfter_le e s.blk.delay s.blk.holdLeft hhead h.holdRange
    portsWf := h.portsWf }

/-- A tick keeps the invariant (R139). -/
theorem inv_tick {s : State} (h : s.Inv) (hbusy : s.blk.busy = true) : (tick s).Inv where
  codeLegal := h.codeLegal
  delayRange := h.delayRange
  initstatBits := h.initstatBits
  bindLegal := h.bindLegal
  idleEmpty hidle := absurd (hbusy.symm.trans hidle) Bool.noConfusion
  runningCmd := h.runningCmd
  opsLegal := h.opsLegal
  bitiHead := h.bitiHead
  holdRange := (Nat.sub_le _ _).trans h.holdRange
  portsWf := h.portsWf

/-- Completion keeps the invariant (R205). -/
theorem inv_finish {s : State} (h : s.Inv) (hhold : s.blk.holdLeft = 0) (hops : s.blk.ops = []) :
    (s.withBlk s.blk.finish).Inv :=
  inv_of_idle (by simp) (by simpa using h.delayRange) (by simpa using h.initstatBits) (by simpa using h.bindLegal)
    (by simp) (by simpa using hops) (by simpa using hhold) h.portsWf

/-- A step of the block keeps the invariant. -/
theorem BlockStep.inv {s t : State} (h : s.Inv) (hstep : BlockStep s t) : t.Inv := by
  cases hstep with
  | ticks hbusy hhold => exact inv_tick h hbusy
  | completes hbusy hhold hops => exact inv_finish h hhold hops
  | performs e rest t ev hbusy hhold hops hperf => exact hperf.inv h hbusy hops
  | waits e rest hbusy hhold hops => exact h
  | idles hidle hoff => exact h
  | rejectsWord w words err hidle hoff hdec => exact (inv_raise h w _).of_blk rfl h.portsWf
  | accepts w words i b hidle hoff hdec hacc => exact (hacc.inv h hidle).of_blk rfl h.portsWf

/-- Settles O35: reset starts the invariant again, another agent's turn keeps the block and the canonical form, and a
step of the block keeps the invariant. -/
theorem stepKeepsTheInvariant : Obligations.StepKeepsTheInvariant := by
  intro s t h hstep
  obtain ⟨rest, -, rfl⟩ | hby | ⟨-, hblk⟩ := step_cases s t hstep
  · exact resetMeetsTheInvariant.of_blk rfl h.portsWf
  · exact h.of_blk hby.blk (hby.portsWf h.portsWf)
  · have hturn : ({ s with agenda := s.agenda.tail } : State).Inv := h.of_blk rfl h.portsWf
    exact hblk.inv hturn

end Sys2Proof.Machine
end

section
/-! PROOFS. A running command is steered neither by what its port reads return nor by the other agents' turns (rules
R31, R64, R162, R208). -/

namespace Sys2Proof.Machine

/-! ## Two blocks that read different values -/

/-- A primitive that answers a next state has passed its guard (R138). -/
theorem portGuard_outcome_next (a : PortAddr) (i : PinCode) (r : PrimResult) (rest : List MicroEntry) (s t : State)
    (h : (portGuard a i r).outcome rest s = .next t) : a ≠ nullPort ∧ pinIsIndex i = true := by
  unfold portGuard at h
  split at h
  · exact nomatch h
  · next ha =>
    split at h
    · next hi => exact ⟨ha, hi⟩
    · exact nomatch h

/-- On a bus that answers, a micro-operation that answers a next state is performed (R57). -/
theorem performed_of_answered (e : MicroEntry) (rest : List MicroEntry) (s t : State) (hans : s.answered = true)
    (h : performMicro e rest s = .next t) : ∃ ev, Performed e rest s t ev := by
  have of_legal (hl : e.op.legal s.blk.delay = true) : ∃ ev, Performed e rest s t ev := by
    obtain ⟨u, ev, hu, hperf⟩ := performMicro_legal e rest s hl hans
    obtain rfl := Host.Outcome.next.inj (hu.symm.trans h)
    exact ⟨ev, hperf⟩
  obtain ⟨c, op⟩ := e
  cases op with
  | delay n =>
    obtain rfl := Host.Outcome.next.inj h
    exact ⟨.hold n, rfl, trivial, rfl, rfl, rfl, rfl, rfl, rfl, rfl⟩
  | setBit a i =>
    obtain ⟨ha, hi⟩ := portGuard_outcome_next a i _ rest s t h
    exact of_legal (by simp [MicroOp.legal, ha, hi])
  | clearBit a i =>
    obtain ⟨ha, hi⟩ := portGuard_outcome_next a i _ rest s t h
    exact of_legal (by simp [MicroOp.legal, ha, hi])
  | readBit a i ord =>
    obtain ⟨ha, hi⟩ := portGuard_outcome_next a i _ rest s t h
    exact of_legal (by simp [MicroOp.legal, ha, hi])

/-- Completion hands the accumulator to RESULT and to nothing else (R205). -/
theorem finish_withAcc (b : SeqState) (a : Byte) :
    ({ b with acc := a } : SeqState).finish =
      { b.finish with acc := ({ b with acc := a } : SeqState).finish.acc
                      result := ({ b with acc := a } : SeqState).finish.result } := by
  unfold SeqState.finish
  split <;> rfl

/-- Settles O45: both blocks take the same case of a running block's step, and the values they read reach ACC alone, and
at completion RESULT. -/
theorem portReadsDoNotSteer : Obligations.PortReadsDoNotSteer := by
  intro s s' t t' hbusy hag hag' hans hans' hblk h h'
  obtain ⟨a, ha⟩ : ∃ a, s'.blk = { s.blk with acc := a } := ⟨_, hblk⟩
  rw [step_running s hag hbusy] at h
  rw [step_running s' hag' (by rw [ha]; exact hbusy)] at h'
  by_cases hhold : s.blk.holdLeft = 0
  · have hhold' : s'.blk.holdLeft = 0 := by rw [ha]; exact hhold
    cases hops : s.blk.ops with
    | nil =>
      rw [runningStep_finish s hhold hops] at h
      rw [runningStep_finish s' hhold' (by rw [ha]; exact hops)] at h'
      obtain rfl := Host.Outcome.next.inj h
      obtain rfl := Host.Outcome.next.inj h'
      refine ⟨?_, fun hb => by simp at hb⟩
      rw [withBlk_blk, withBlk_blk, ha]
      exact finish_withAcc s.blk a
    | cons e rest =>
      rw [runningStep_micro s e rest hhold hops] at h
      rw [runningStep_micro s' e rest hhold' (by rw [ha]; exact hops)] at h'
      obtain ⟨ev, hperf⟩ := performed_of_answered e rest s t hans h
      obtain ⟨ev', hperf'⟩ := performed_of_answered e rest s' t' hans' h'
      rw [hperf.blk, hperf'.blk, ha]
      exact ⟨rfl, fun _ => rfl⟩
  · rw [runningStep_tick s hhold] at h
    rw [runningStep_tick s' (by rw [ha]; exact hhold)] at h'
    obtain rfl := Host.Outcome.next.inj h
    obtain rfl := Host.Outcome.next.inj h'
    rw [tick, tick, withBlk_blk, withBlk_blk, ha]
    exact ⟨rfl, fun _ => rfl⟩

/-! ## A command under any schedule without reset -/

/-- The registers and CMD of a running block, which no step before completion writes (R31). -/
def SameCommand (b c : SeqState) : Prop :=
  c.busy = true ∧ c.cmd = b.cmd ∧ c.code = b.code ∧ c.result = b.result ∧ SameSettings b c

/-- What a step short of reset does to a running block: it shows nothing and leaves the list, it performs the head of
the list, or the list is empty and the block completes (R31, R206). -/
theorem step_of_running (s t : State) (hbusy : s.blk.busy = true) (hreset : ∀ turn ∈ s.agenda, turn ≠ .hostReset)
    (h : step s = .next t) :
    (t.trace = s.trace ∧ t.blk.ops = s.blk.ops ∧ SameCommand s.blk t.blk) ∨
      (∃ e ev, t.trace = s.trace ++ [ev] ∧ e.op.shows ev ∧ s.blk.ops = e :: t.blk.ops ∧ SameCommand s.blk t.blk) ∨
      (t.trace = s.trace ∧ s.blk.ops = []) := by
  obtain ⟨rest, hag, -⟩ | hby | ⟨-, hblk⟩ := step_cases s t h
  · exact absurd rfl (hreset .hostReset (by rw [hag]; exact List.mem_cons_self))
  · rw [hby.blk]
    exact .inl ⟨hby.trace, rfl, hbusy, rfl, rfl, rfl, rfl, rfl, rfl⟩
  · cases hblk with
    | ticks _ hhold => exact .inl ⟨rfl, rfl, hbusy, rfl, rfl, rfl, rfl, rfl, rfl⟩
    | completes _ hhold hops => exact .inr (.inr ⟨rfl, hops⟩)
    | performs e rest _ ev _ hhold hops hperf =>
      refine .inr (.inl ⟨e, ev, hperf.trace, hperf.shows, ?_⟩)
      rw [hperf.blk]
      exact ⟨hops, hbusy, rfl, rfl, rfl, rfl, rfl, rfl⟩
    | waits e rest _ hhold hops => exact .inl ⟨rfl, rfl, hbusy, rfl, rfl, rfl, rfl, rfl, rfl⟩
    | idles hidle hoff => exact absurd (hbusy.symm.trans hidle) Bool.noConfusion
    | rejectsWord w words err hidle hoff hdec => exact absurd (hbusy.symm.trans hidle) Bool.noConfusion
    | accepts w words i b hidle hoff hdec hacc => exact absurd (hbusy.symm.trans hidle) Bool.noConfusion

/-- Going on with the same command is transitive. -/
theorem SameCommand.trans {b c d : SeqState} (h : SameCommand b c) (h' : SameCommand c d) : SameCommand b d := by
  obtain ⟨-, hcmd, hcode, hresult, hdelay, hinit, hbind⟩ := h
  obtain ⟨hbusy, hcmd', hcode', hresult', hdelay', hinit', hbind'⟩ := h'
  exact ⟨hbusy, hcmd'.trans hcmd, hcode'.trans hcode, hresult'.trans hresult, hdelay'.trans hdelay,
    hinit'.trans hinit, hbind'.trans hbind⟩

/-- What a run of steps shows of the list a block had at its start: `evs` of the first part `pre`, then `more`, which is
empty while the command is still running. -/
def ShowsInOrder (s t : State) : Prop :=
  ∃ pre evs more, t.trace = s.trace ++ evs ++ more ∧
    List.Forall₂ (fun (e : MicroEntry) ev => e.op.shows ev) pre evs ∧
    (pre = s.blk.ops ∨ (more = [] ∧ s.blk.ops = pre ++ t.blk.ops ∧ SameCommand s.blk t.blk))

/-- A step that shows nothing in front of a run (R64). -/
theorem ShowsInOrder.of_silent {s u t : State} (h : ShowsInOrder u t) (htrace : u.trace = s.trace)
    (hops : u.blk.ops = s.blk.ops) (hsame : SameCommand s.blk u.blk) : ShowsInOrder s t := by
  obtain ⟨pre, evs, more, htr, hshows, hdone⟩ := h
  rw [htrace] at htr
  rw [hops] at hdone
  exact ⟨pre, evs, more, htr, hshows, hdone.imp_right fun ⟨hmore, hlist, hcmd⟩ => ⟨hmore, hlist, hsame.trans hcmd⟩⟩

/-- A step that performs the head of the list in front of a run (R206). -/
theorem ShowsInOrder.of_performed {s u t : State} {e : MicroEntry} {ev : BusEvent} (h : ShowsInOrder u t)
    (htrace : u.trace = s.trace ++ [ev]) (hshows : e.op.shows ev) (hops : s.blk.ops = e :: u.blk.ops)
    (hsame : SameCommand s.blk u.blk) : ShowsInOrder s t := by
  obtain ⟨pre, evs, more, htr, hrest, hdone⟩ := h
  refine ⟨e :: pre, ev :: evs, more, by rw [htr, htrace]; simp, .cons hshows hrest, ?_⟩
  rw [hops]
  exact hdone.imp (congrArg (e :: ·)) fun ⟨hmore, hlist, hcmd⟩ =>
    ⟨hmore, congrArg (e :: ·) hlist, hsame.trans hcmd⟩

/-- Any number of steps short of reset show the list in order, by induction on the steps. -/
theorem steps_showsInOrder (n : Nat) : ∀ s t : State, s.blk.busy = true →
    (∀ turn ∈ s.agenda, turn ≠ .hostReset) → Steps n s t → ShowsInOrder s t := by
  induction n with
  | zero =>
    intro s t hbusy _ h
    obtain rfl := (steps_zero s t).mp h
    exact ⟨[], [], [], by simp, .nil, .inr ⟨rfl, rfl, hbusy, rfl, rfl, rfl, rfl, rfl, rfl⟩⟩
  | succ n ih =>
    intro s t hbusy hreset h
    obtain ⟨u, hu, ht⟩ := (steps_succ n s t).mp h
    have hreset' : ∀ turn ∈ u.agenda, turn ≠ .hostReset := by
      rw [step_agenda s u hu]
      exact fun turn hturn => hreset turn (List.mem_of_mem_tail hturn)
    obtain ⟨htrace, hops, hsame⟩ | ⟨e, ev, htrace, hshows, hops, hsame⟩ | ⟨htrace, hops⟩ :=
      step_of_running s u hbusy hreset hu
    · exact (ih u t hsame.1 hreset' ht).of_silent htrace hops hsame
    · exact (ih u t hsame.1 hreset' ht).of_performed htrace hshows hops hsame
    · obtain ⟨more, hmore⟩ := steps_trace_append n u t ht
      exact ⟨[], [], more, by rw [hmore, htrace, List.append_nil], .nil, .inl hops.symm⟩

/-- Settles O46: `steps_showsInOrder`, with the registers written out. -/
theorem noScheduleCutsACommandShort : Obligations.NoScheduleCutsACommandShort :=
  steps_showsInOrder

end Sys2Proof.Machine
end

section
/-! PROOFS. The registers the host reads: their layout (R21..R26, R60), and what writes RESULT and DELAY (R23, R24, R28,
R112). -/

namespace Sys2Proof.Machine

/-! ## The layout of a host read -/

/-- The number of two fields side by side. -/
theorem toNat_append_eq_add {m n : Nat} (x : BitVec m) (y : BitVec n) :
    (x ++ y).toNat = x.toNat * 2 ^ n + y.toNat := by
  rw [BitVec.toNat_append, ← Nat.shiftLeft_add_eq_or_of_lt y.isLt, Nat.shiftLeft_eq]

theorem statusWord_toNat (b : SeqState) : (statusWord b).toNat = b.code.toNat + 16 * b.busy.toNat := by
  simp only [statusWord, toNat_append_eq_add, BitVec.toNat_ofBool, BitVec.toNat_ofNat]
  omega

/-- A word whose upper bits are reserved has the number of its one field (R23..R25). -/
theorem toNat_zero_append {m n : Nat} (x : BitVec n) : (0#m ++ x).toNat = x.toNat := by
  rw [toNat_append_eq_add, BitVec.toNat_zero]
  omega

theorem bindingWord_toNat (bd : Binding) : (bindingWord bd).toNat = bd.port.toNat * 2 ^ 20 + bd.pin.toNat * 16 := by
  simp only [bindingWord, toNat_append_eq_add, BitVec.toNat_ofNat]
  omega

/-- Registers 8..15 read as zero (R60). -/
theorem hostRead_reserved (n : BitVec 4) (s : State) (h : 8 ≤ n.toNat) : hostRead n s = 0#32 := by
  have hne (k : BitVec 4) (hk : k.toNat < 8) : n ≠ k := by rintro rfl; omega
  unfold hostRead
  rw [if_neg (hne 0#4 (by decide)), if_neg (hne 1#4 (by decide)), if_neg (hne 2#4 (by decide)),
    if_neg (hne 3#4 (by decide)), if_neg (hne 4#4 (by decide)), if_neg (hne 5#4 (by decide)),
    if_neg (hne 6#4 (by decide)), if_neg (hne 7#4 (by decide))]

/-- Settles O40: one register word after the other, each as the number of its fields. -/
theorem hostReadLayout : Obligations.HostReadLayout := fun s =>
  ⟨statusWord_toNat s.blk, toNat_zero_append s.blk.result, toNat_zero_append s.blk.delay,
    toNat_zero_append s.blk.initstat, bindingWord_toNat s.blk.bind.mosi, bindingWord_toNat s.blk.bind.miso,
    bindingWord_toNat s.blk.bind.clk, bindingWord_toNat s.blk.bind.sel, fun n hn => hostRead_reserved n s hn⟩

/-! ## What writes RESULT -/

/-- A word whose completion returns a byte is a TRANSFER's or a CLEAR's (R152, R160). -/
theorem isTransfer_of_cmdReturnsAcc (w : Word) (h : cmdReturnsAcc w = true) :
    ∃ i val ord, IsTransfer i val ord ∧ decodeWord w = .ok i := by
  unfold cmdReturnsAcc at h
  split at h
  · next i hdec =>
    cases i with
    | transfer val ord => exact ⟨_, val, ord, .inl rfl, hdec⟩
    | clear => exact ⟨_, 0x00#8, .lsbFirst, .inr ⟨rfl, rfl, rfl⟩, hdec⟩
    | _ => exact nomatch h
  · exact nomatch h

/-- Settles O42: of the steps of the block, only the acceptance of ISREADY and a completion write RESULT. -/
theorem onlyTransferIsreadyAndResetWriteResult : Obligations.OnlyTransferIsreadyAndResetWriteResult := by
  intro s t h hne
  obtain ⟨rest, hag, -⟩ | hby | ⟨hturn, hblk⟩ := step_cases s t h
  · exact .inl ⟨rest, hag⟩
  · exact absurd (by rw [hby.blk]) hne
  · refine .inr ⟨hturn, ?_⟩
    cases hblk with
    | completes hbusy hhold hops =>
      simp only [withBlk_blk, finish_result] at hne ⊢
      split at hne
      · next hret =>
        exact ⟨finish_code _, finish_busy _,
          .inr ⟨hbusy, hops, hhold, if_pos hret, isTransfer_of_cmdReturnsAcc _ hret⟩⟩
      · exact absurd rfl hne
    | performs e rest _ ev hbusy hhold hops hperf => exact absurd (by rw [hperf.blk]) hne
    | accepts w words i b hidle hoff hdec hacc =>
      obtain ⟨rfl, hcode, hdone⟩ := hacc.result_eq.resolve_left hne
      exact ⟨hcode, hdone, .inl ⟨hidle, w, words, hoff, hdec⟩⟩
    | _ => exact absurd rfl hne

/-! ## What writes DELAY -/

/-- Settles O43: of the steps of the block, only the acceptance of a positive SETDELAY writes DELAY. -/
theorem onlySetdelayAndResetWriteDelay : Obligations.OnlySetdelayAndResetWriteDelay := by
  intro s t h hne
  obtain ⟨rest, hag, -⟩ | hby | ⟨hturn, hblk⟩ := step_cases s t h
  · exact .inl ⟨rest, hag⟩
  · exact absurd (by rw [hby.blk]) hne
  · refine .inr ⟨hturn, ?_⟩
    cases hblk with
    | completes hbusy hhold hops => exact absurd (finish_delay _) hne
    | performs e rest _ ev hbusy hhold hops hperf => exact absurd (by rw [hperf.blk]) hne
    | accepts w words i b hidle hoff hdec hacc =>
      obtain ⟨ticks, rfl, hpos, hdelay⟩ := hacc.delay_eq.resolve_left hne
      obtain ⟨hlow, hhigh⟩ := (ticksPositive_iff ticks).mp hpos
      exact ⟨hidle, w, words, ticks, hoff, hdec, hlow, hhigh, hdelay⟩
    | _ => exact absurd rfl hne

end Sys2Proof.Machine
end

section
/-! PROOFS. The port bus (rules R51, R55, R57, R60, R138, R204, R205): no step stops the machine, a read-modify-write
works on the value supplied to it, and a running command leaves the registers the host reads. -/

namespace Sys2Proof.Machine

/-! ## A legal primitive is its transaction -/

/-- What `MicroOp.legal` asks of a transaction's port and pin (R138). -/
theorem ne_null_and_index_of_guard (a : PortAddr) (i : PinCode) (h : (a != nullPort && pinIsIndex i) = true) :
    a ≠ nullPort ∧ pinIsIndex i = true := by
  simpa using h

theorem performMicro_setBit (c : Fin 8) (a : PortAddr) (i : PinCode) (rest : List MicroEntry) (s : State)
    (ha : a ≠ nullPort) (hi : pinIsIndex i = true) :
    performMicro { cycle := c, op := .setBit a i } rest s = (portRMW a 0x00#8 (pinMask i) s).outcome rest s := by
  simp only [performMicro, setBit, portGuard_legal a i _ ha hi]

theorem performMicro_clearBit (c : Fin 8) (a : PortAddr) (i : PinCode) (rest : List MicroEntry) (s : State)
    (ha : a ≠ nullPort) (hi : pinIsIndex i = true) :
    performMicro { cycle := c, op := .clearBit a i } rest s = (portRMW a (pinMask i) 0x00#8 s).outcome rest s := by
  simp only [performMicro, clearBit, portGuard_legal a i _ ha hi]

theorem performMicro_readBit (c : Fin 8) (a : PortAddr) (i : PinCode) (ord : BitOrder) (rest : List MicroEntry)
    (s : State) (ha : a ≠ nullPort) (hi : pinIsIndex i = true) :
    performMicro { cycle := c, op := .readBit a i ord } rest s =
      (portRead a (fun v b => { b with acc := accumulate b.acc (pinLevel v i) c ord }) s).outcome rest s := by
  simp only [performMicro, readBit, portGuard_legal a i _ ha hi]

/-- A read transaction never stops the machine: it is answered, or the block waits for it (R54, R247). -/
theorem portRead_outcome_next (a : PortAddr) (use : Byte → SeqState → SeqState) (rest : List MicroEntry)
    (s : State) : ∃ t, (portRead a use s).outcome rest s = .next t := by
  unfold portRead
  split <;> exact ⟨_, rfl⟩

/-- Nor does a read-modify-write (R55, R247). -/
theorem portRMW_outcome_next (a : PortAddr) (clr set : Byte) (rest : List MicroEntry) (s : State) :
    ∃ t, (portRMW a clr set s).outcome rest s = .next t := by
  unfold portRMW
  split <;> exact ⟨_, rfl⟩

/-! ## Progress -/

/-- A legal micro-operation never stops the machine, whether or not the bus answers (R138, R247). -/
theorem performMicro_next_of_legal (e : MicroEntry) (rest : List MicroEntry) (s : State) (d : Ticks)
    (hlegal : e.op.legal d = true) : ∃ t, performMicro e rest s = .next t := by
  obtain ⟨c, op⟩ := e
  cases op with
  | delay n => exact ⟨_, rfl⟩
  | setBit a i =>
    obtain ⟨ha, hi⟩ := ne_null_and_index_of_guard a i hlegal
    rw [performMicro_setBit c a i rest s ha hi]
    exact portRMW_outcome_next a _ _ rest s
  | clearBit a i =>
    obtain ⟨ha, hi⟩ := ne_null_and_index_of_guard a i hlegal
    rw [performMicro_clearBit c a i rest s ha hi]
    exact portRMW_outcome_next a _ _ rest s
  | readBit a i ord =>
    obtain ⟨ha, hi⟩ := ne_null_and_index_of_guard a i hlegal
    rw [performMicro_readBit c a i ord rest s ha hi]
    exact portRead_outcome_next a _ rest s

/-- A running block whose list is legal goes on (R138, R206). -/
theorem runningStep_next (s : State) (h : s.Inv) : ∃ t, runningStep s = .next t := by
  by_cases hhold : s.blk.holdLeft = 0
  · cases hops : s.blk.ops with
    | nil => exact ⟨_, runningStep_finish s hhold hops⟩
    | cons e rest =>
      have hlegal := h.opsLegal e (by rw [hops]; exact List.mem_cons_self)
      rw [runningStep_micro s e rest hhold hops]
      exact performMicro_next_of_legal e rest s s.blk.delay hlegal
  · exact ⟨_, runningStep_tick s hhold⟩

/-- No word is refused, whether or not it decodes (R82, R204). -/
theorem acceptWord_next (w : Word) (s : State) : ∃ t, acceptWord w s = .next t := by
  unfold acceptWord
  split
  · next i hdec =>
    obtain ⟨b, hb⟩ := exec_changes_only_block i s
    exact ⟨_, hb⟩
  · exact ⟨_, rfl⟩

/-- The block's own step answers a next state (R203, R206, R215). -/
theorem sequencerStep_next (s : State) (h : s.Inv) : ∃ t, sequencerStep s = .next t := by
  unfold sequencerStep
  split
  · exact runningStep_next s h
  · split
    · exact ⟨_, rfl⟩
    · exact acceptWord_next _ _

/-- Settles O36: the only turn that could stop is the block's own, and `sequencerStep_next` rules that out. -/
theorem stepNeverStops : Obligations.StepNeverStops := by
  intro s h
  cases hag : s.agenda with
  | nil =>
    rw [step_no_agenda s hag]
    exact sequencerStep_next s h
  | cons turn rest =>
    rw [step_turn s turn rest hag]
    cases turn with
    | sequencer => exact sequencerStep_next _ (h.of_blk rfl h.portsWf)
    | _ => exact ⟨_, rfl⟩

/-- Any number of steps can be made from a state that meets the invariant, by induction on the steps. -/
theorem steps_of_inv (n : Nat) : ∀ s : State, s.Inv → ∃ t, Steps n s t := by
  induction n with
  | zero => exact fun s _ => ⟨s, (steps_zero s s).mpr rfl⟩
  | succ n ih =>
    intro s h
    obtain ⟨u, hu⟩ := stepNeverStops s h
    obtain ⟨t, ht⟩ := ih u (stepKeepsTheInvariant s u h hu)
    exact ⟨t, (steps_succ n s t).mpr ⟨u, hu, ht⟩⟩

/-- Settles O37: the run of n steps answers a next state (`steps_of_inv`), so it is no fault. -/
theorem everyRunIsSafe : Obligations.EveryRunIsSafe := by
  intro s h n f hfault
  obtain ⟨t, ht⟩ := steps_of_inv n s h
  exact nomatch ht.symm.trans hfault

/-! ## A read-modify-write of a supplied value -/

theorem rmwValue_set (old set : Byte) : rmwValue old 0x00#8 set = old ||| set := by
  rw [rmwValue, BitVec.not_zero, BitVec.and_allOnes]

theorem rmwValue_clear (old clr : Byte) : rmwValue old clr 0x00#8 = old &&& ~~~clr := BitVec.or_zero

/-- A supplied value is what the transaction works on, whatever port it names (R57). -/
theorem busValue_supplied (s : State) (a : PortAddr) (v : Byte) (more : List BusAnswer)
    (hans : s.answers = .supply v :: more) : s.busValue a = some v := by
  simp [State.busValue, hans]

/-- A read-modify-write that is supplied a value: it takes the answer, leaves the masks of that value in its register,
and leaves the other registers (R55, R57). -/
theorem portRMW_supplied (a : PortAddr) (clr set : Byte) (rest : List MicroEntry) (s : State) (v : Byte)
    (more : List BusAnswer) (hwf : s.ports.wf = true) (hans : s.answers = .supply v :: more) :
    ∃ t, (portRMW a clr set s).outcome rest s = .next t ∧ t.answers = more ∧
      t.ports.read a.toNat = rmwValue v clr set ∧ ∀ b, b ≠ a.toNat → t.ports.read b = s.ports.read b := by
  rw [portRMW, busValue_supplied s a v more hans]
  exact ⟨_, rfl, congrArg List.tail hans, read_write_same s.ports 1 a.toNat _ hwf,
    fun b hb => read_write_other s.ports a.toNat b _ hb⟩

/-- Settles O31: SETBIT and CLEARBIT are one read-modify-write each, of the value supplied (`portRMW_supplied`). -/
theorem rmwUsesTheSuppliedValue : Obligations.RmwUsesTheSuppliedValue := by
  intro s c op rest a i v more hwf hag hans hbusy hhold hops hop ha hi
  have hpin : pinIsIndex i = true := decide_eq_true hi
  rw [step_running s hag hbusy, runningStep_micro s _ rest hhold hops]
  obtain rfl | rfl := hop
  · rw [performMicro_setBit c a i rest s ha hpin]
    obtain ⟨t, ht, hmore, hsame, hother⟩ := portRMW_supplied a 0x00#8 (pinMask i) rest s v more hwf hans
    rw [rmwValue_set] at hsame
    exact ⟨t, ht, hmore, fun _ => hsame, nofun, hother⟩
  · rw [performMicro_clearBit c a i rest s ha hpin]
    obtain ⟨t, ht, hmore, hsame, hother⟩ := portRMW_supplied a (pinMask i) 0x00#8 rest s v more hwf hans
    rw [rmwValue_clear] at hsame
    exact ⟨t, ht, hmore, nofun, fun _ => hsame, hother⟩

/-! ## The registers while a command runs -/

/-- A step of the block between two running states goes on with the same command: completion leaves the block idle, and
acceptance needs it idle (R31, R205, R206). -/
theorem BlockStep.sameCommand {s t : State} (h : BlockStep s t) (hbusy : s.blk.busy = true)
    (hbusy' : t.blk.busy = true) : SameCommand s.blk t.blk := by
  cases h with
  | ticks _ hhold => exact ⟨hbusy, rfl, rfl, rfl, rfl, rfl, rfl⟩
  | completes _ hhold hops => exact absurd ((finish_busy s.blk).symm.trans hbusy') Bool.noConfusion
  | performs e rest _ ev _ hhold hops hperf =>
    rw [hperf.blk]
    exact ⟨hbusy, rfl, rfl, rfl, rfl, rfl, rfl⟩
  | waits e rest _ hhold hops => exact ⟨hbusy, rfl, rfl, rfl, rfl, rfl, rfl⟩
  | idles hidle hoff => exact absurd (hbusy.symm.trans hidle) Bool.noConfusion
  | rejectsWord w words err hidle hoff hdec => exact absurd (hbusy.symm.trans hidle) Bool.noConfusion
  | accepts w words i b hidle hoff hdec hacc => exact absurd (hbusy.symm.trans hidle) Bool.noConfusion

/-- Settles O44: a reset turn leaves no running block, the other agents' turns leave the block as it is, and the block's
own step goes on with the same command. -/
theorem runningCommandKeepsTheRegisters : Obligations.RunningCommandKeepsTheRegisters := by
  intro s t hbusy hbusy' hstep
  obtain ⟨rest, -, rfl⟩ | hby | ⟨-, hblk⟩ := step_cases s t hstep
  · exact nomatch hbusy'
  · rw [hby.blk]
    exact ⟨rfl, rfl, ⟨rfl, rfl, rfl⟩, rfl⟩
  · obtain ⟨-, hcmd, hcode, hresult, hsettings⟩ := hblk.sameCommand hbusy hbusy'
    exact ⟨hcode, hresult, hsettings, hcmd⟩

end Sys2Proof.Machine
end

section
/-! PROOFS. Command words (rules R59, R71..R82, R86, R88): a word that matches a row of the opcode map is the word of
its row's command, and encoding loses no operand, so decoding and encoding undo each other. -/

namespace Sys2Proof

open Laws.EncodeMatchesRow (row)
open Machine (IsTransfer)

/-! ## A word that matches a row is its command's word -/

/-- A field in which the row's mask is all ones holds what the row's pattern holds there (R81). -/
theorem field_eq_pattern_of_row {w : Word} {k : Opcode} (h : w &&& k.mask = k.pattern) (start len : Nat)
    (hmask : k.mask.extractLsb' start len = BitVec.allOnes len) :
    w.extractLsb' start len = k.pattern.extractLsb' start len := by
  rw [← h, BitVec.extractLsb'_and, hmask, BitVec.and_allOnes]

theorem ofBool_decide_eq_one (v : BitVec 1) : BitVec.ofBool (decide (v = 1#1)) = v := by revert v; decide

/-- Encoding a row's command puts back each operand's field; the other fields are the row's own (R71..R79). -/
theorem encode_command_of_row (w : Word) (k : Opcode) (h : w &&& k.mask = k.pattern) : encode (k.command w) = w := by
  cases k with
  | bind =>
    have hzero : w.extractLsb' 10 10 = 0#10 := field_eq_pattern_of_row h 10 10 rfl
    have hopc : w.extractLsb' 0 4 = 1#4 := opc_of_row w .bind h
    rw [Opcode.command, encode, role_code_ofCode, ← hzero, ← hopc]
    simp only [BitVec.extractLsb'_append_extractLsb'_eq_extractLsb', BitVec.extractLsb'_eq_self]
  | init =>
    have hopc : w.extractLsb' 0 4 = 2#4 := opc_of_row w .init h
    rw [Opcode.command, encode, ← hopc]
    simp only [BitVec.extractLsb'_append_extractLsb'_eq_extractLsb', BitVec.extractLsb'_eq_self]
  | isready => exact h.symm.trans BitVec.and_allOnes
  | setdelay =>
    have hzero : w.extractLsb' 4 12 = 0#12 := field_eq_pattern_of_row h 4 12 rfl
    have hopc : w.extractLsb' 0 4 = 4#4 := opc_of_row w .setdelay h
    rw [Opcode.command, encode, ← hzero, ← hopc]
    simp only [BitVec.extractLsb'_append_extractLsb'_eq_extractLsb', BitVec.extractLsb'_eq_self]
  | transfer =>
    have hhigh : w.extractLsb' 16 16 = 0#16 := field_eq_pattern_of_row h 16 16 rfl
    have hzero : w.extractLsb' 5 3 = 0#3 := field_eq_pattern_of_row h 5 3 rfl
    have hopc : w.extractLsb' 0 4 = 5#4 := opc_of_row w .transfer h
    rw [Opcode.command, encode_canonical, encode, order_bit_ofBit, ← hhigh, ← hzero, ← hopc]
    simp only [BitVec.extractLsb'_append_extractLsb'_eq_extractLsb', BitVec.extractLsb'_eq_self]
  | trigger => exact h.symm.trans BitVec.and_allOnes
  | writecs =>
    have hzero : w.extractLsb' 5 27 = 0#27 := field_eq_pattern_of_row h 5 27 rfl
    have hopc : w.extractLsb' 0 4 = 7#4 := opc_of_row w .writecs h
    rw [Opcode.command, encode, ofBool_decide_eq_one, ← hzero, ← hopc]
    simp only [BitVec.extractLsb'_append_extractLsb'_eq_extractLsb', BitVec.extractLsb'_eq_self]

theorem command_wellFormed (k : Opcode) (w : Word) : (k.command w).wellFormed = true := by
  cases k with
  | transfer => exact canonical_wellFormed _
  | _ => rfl

/-- Settles O2: the word matches the row of the command it decodes to, so it is that command's word. -/
theorem encodeOfDecodeIsTheWord : Obligations.EncodeOfDecodeIsTheWord := by
  intro w i h
  obtain ⟨k, hk, rfl⟩ := row_of_decodeWord w i h
  exact ⟨encode_command_of_row w k hk, command_wellFormed k w⟩

/-! ## Encoding loses no operand -/

theorem append_inj {m n : Nat} {x x' : BitVec m} {y y' : BitVec n} (h : x ++ y = x' ++ y') : x = x' ∧ y = y' := by
  have hx := congrArg (BitVec.extractLsb' n m) h
  have hy := congrArg (BitVec.extractLsb' 0 n) h
  rw [BitVec.extractLsb'_append_eq_left, BitVec.extractLsb'_append_eq_left] at hx
  rw [BitVec.extractLsb'_append_eq_right, BitVec.extractLsb'_append_eq_right] at hy
  exact ⟨hx, hy⟩

theorem role_code_inj {r r' : Role} (h : r.code = r'.code) : r = r' := by
  rw [← role_ofCode_code r, h, role_ofCode_code]

theorem order_bit_inj {o o' : BitOrder} (h : o.bit = o'.bit) : o = o' := by
  rw [← order_ofBit_bit o, h, order_ofBit_bit]

theorem encode_bind_inj {r r' : Role} {a a' : PortAddr} {p p' : PinCode}
    (h : encode (.bind r a p) = encode (.bind r' a' p')) : Instr.bind r a p = .bind r' a' p' := by
  obtain ⟨h, -⟩ := append_inj h
  obtain ⟨h, hpin⟩ := append_inj h
  obtain ⟨h, hrole⟩ := append_inj h
  obtain ⟨hport, -⟩ := append_inj h
  rw [role_code_inj hrole, hport, hpin]

theorem encode_init_inj {a a' : PortAddr} {m m' n n' c c' l l' : PinCode}
    (h : encode (.init a m n c l) = encode (.init a' m' n' c' l')) :
    Instr.init a m n c l = .init a' m' n' c' l' := by
  obtain ⟨h, -⟩ := append_inj h
  obtain ⟨h, hmosi⟩ := append_inj h
  obtain ⟨h, hmiso⟩ := append_inj h
  obtain ⟨h, hclk⟩ := append_inj h
  obtain ⟨hport, hsel⟩ := append_inj h
  rw [hport, hmosi, hmiso, hclk, hsel]

theorem encode_setdelay_inj {t t' : Ticks} (h : encode (.setdelay t) = encode (.setdelay t')) :
    Instr.setdelay t = .setdelay t' := by
  obtain ⟨h, -⟩ := append_inj h
  obtain ⟨hticks, -⟩ := append_inj h
  rw [hticks]

theorem encode_transfer_inj {v v' : Byte} {o o' : BitOrder}
    (h : encode (.transfer v o) = encode (.transfer v' o')) : Instr.transfer v o = .transfer v' o' := by
  obtain ⟨h, -⟩ := append_inj h
  obtain ⟨h, horder⟩ := append_inj h
  obtain ⟨h, -⟩ := append_inj h
  obtain ⟨-, hval⟩ := append_inj h
  rw [order_bit_inj horder, hval]

theorem encode_writecs_inj {l l' : Bool} (h : encode (.writecs l) = encode (.writecs l')) :
    Instr.writecs l = .writecs l' := by
  obtain ⟨h, -⟩ := append_inj h
  obtain ⟨-, hlevel⟩ := append_inj h
  rw [BitVec.ofBool_eq_iff_eq.mp hlevel]

/-! ## Decoding the word of a command -/

/-- Every command's word matches its row of the opcode map (R81, R86). -/
theorem encode_matches_row (i : Instr) : encode i &&& (row i).mask = (row i).pattern := by
  cases i with
  | bind role port pin => exact Laws.EncodeMatchesRow.bind role port pin
  | init port m n c l => exact Laws.EncodeMatchesRow.init port m n c l
  | isready => exact Laws.EncodeMatchesRow.isready
  | setdelay ticks => exact Laws.EncodeMatchesRow.setdelay ticks
  | transfer val ord => exact Laws.EncodeMatchesRow.transfer val ord
  | trigger => exact Laws.EncodeMatchesRow.trigger
  | writecs lvl => exact Laws.EncodeMatchesRow.writecs lvl
  | clear => exact Laws.EncodeMatchesRow.clear

/-- The operands read from a command's word are the command's: both give the same word, and encoding loses none. -/
theorem command_encode (i : Instr) : (row i).command (encode i) = i.canonical := by
  have h := encode_command_of_row (encode i) (row i) (encode_matches_row i)
  cases i with
  | bind role port pin => exact encode_bind_inj h
  | init port m n c l => exact encode_init_inj h
  | setdelay ticks => exact encode_setdelay_inj h
  | transfer val ord => exact congrArg Instr.canonical (encode_transfer_inj ((encode_canonical _).symm.trans h))
  | writecs lvl => exact encode_writecs_inj h
  | isready => rfl
  | trigger => rfl
  | clear => rfl

/-- A command's word decodes to the command's well-formed spelling (R82, R86). -/
theorem decodeWord_encode (i : Instr) : decodeWord (encode i) = .ok i.canonical := by
  rw [decodeWord_of_row _ (row i) (encode_matches_row i), command_encode]

theorem canonical_of_wellFormed {i : Instr} (h : i.wellFormed = true) : i.canonical = i := if_pos h

/-- The bytes of a word, put together again, are the word (R59, D25). -/
theorem wordOfBytes_bytesOfWord (w : Word) :
    wordOfBytes (w.extractLsb' 0 8) (w.extractLsb' 8 8) (w.extractLsb' 16 8) (w.extractLsb' 24 8) = w := by
  simp only [wordOfBytes, BitVec.extractLsb'_append_extractLsb'_eq_extractLsb', BitVec.extractLsb'_eq_self]

/-- A stream that begins with a word's bytes decodes as the word does, and leaves the bytes after it (R59, R84). -/
theorem decode_bytesOfWord (w : Word) (rest : List Byte) :
    decode (bytesOfWord w ++ rest) = (decodeWord w).map fun i => (i, rest) := by
  simp only [bytesOfWord, List.cons_append, List.nil_append, decode, wordOfBytes_bytesOfWord]

/-- Settles O1: a word decodes to the well-formed spelling, which a well-formed command is. -/
theorem decodeOfEncodeIsTheCommand : Obligations.DecodeOfEncodeIsTheCommand := by
  intro i rest hwf
  have hdec : decodeWord (encode i) = .ok i := by rw [decodeWord_encode, canonical_of_wellFormed hwf]
  refine ⟨hdec, ?_⟩
  rw [decode_bytesOfWord, hdec]
  rfl

/-- Settles O4: each word is evaluated. -/
theorem specWordsDecode : Obligations.SpecWordsDecode :=
  ⟨rfl, rfl, rfl, rfl, rfl, rfl, rfl, rfl, rfl, rfl, rfl⟩

/-! ## The opcode map -/

/-- A word that decodes to a command matches the command's row, being the command's word (R81). -/
theorem matches_row_of_decodeWord {w : Word} {i : Instr} (h : decodeWord w = .ok i) :
    w &&& (row i).mask = (row i).pattern := by
  obtain ⟨rfl, -⟩ := encodeOfDecodeIsTheWord w i h
  exact encode_matches_row i

/-- The well-formed spelling of a transfer is that transfer (R86, R160). -/
theorem isTransfer_canonical (val : Byte) (ord : BitOrder) :
    IsTransfer (Instr.transfer val ord).canonical val ord := by
  unfold Instr.canonical
  split
  · exact .inl rfl
  · next h =>
    simp only [Instr.wellFormed, Bool.not_eq_true, Bool.not_eq_false', Bool.and_eq_true, beq_iff_eq] at h
    exact .inr ⟨rfl, h⟩

theorem row_of_isTransfer {i : Instr} {val : Byte} {ord : BitOrder} (h : IsTransfer i val ord) :
    row i = .transfer := by
  obtain rfl | ⟨rfl, -, -⟩ := h <;> rfl

theorem transfer_row_of_decodeWord {w : Word} {i : Instr} {val : Byte} {ord : BitOrder} (hi : IsTransfer i val ord)
    (h : decodeWord w = .ok i) : w &&& Opcode.transfer.mask = Opcode.transfer.pattern := by
  rw [← row_of_isTransfer hi]
  exact matches_row_of_decodeWord h

/-- Settles O3: from left to right, the word decodes to its row's command; from right to left, it matches the row of the
command it decodes to. -/
theorem opcodeMapSelectsTheCommand : Obligations.OpcodeMapSelectsTheCommand := fun w =>
  ⟨⟨fun h => ⟨_, _, _, decodeWord_of_row w .bind h⟩, fun ⟨_, _, _, h⟩ => matches_row_of_decodeWord h⟩,
    ⟨fun h => ⟨_, _, _, _, _, decodeWord_of_row w .init h⟩,
      fun ⟨_, _, _, _, _, h⟩ => matches_row_of_decodeWord h⟩,
    ⟨fun h => decodeWord_of_row w .isready h, fun h => matches_row_of_decodeWord h⟩,
    ⟨fun h => ⟨_, decodeWord_of_row w .setdelay h⟩, fun ⟨_, h⟩ => matches_row_of_decodeWord h⟩,
    ⟨fun h => ⟨_, _, _, isTransfer_canonical _ _, decodeWord_of_row w .transfer h⟩,
      fun ⟨_, _, _, hi, h⟩ => transfer_row_of_decodeWord hi h⟩,
    ⟨fun h => decodeWord_of_row w .trigger h, fun h => matches_row_of_decodeWord h⟩,
    ⟨fun h => ⟨_, decodeWord_of_row w .writecs h⟩, fun ⟨_, h⟩ => matches_row_of_decodeWord h⟩⟩

end Sys2Proof
end

section
/-! PROOFS. The assembler reads what the disassembler prints (rules R85..R87). -/

namespace Sys2Proof.Machine

/-! ## Operands -/

/-- A field's number fits its field. -/
theorem fieldArg_toNat {n : Nat} (x : BitVec n) : fieldArg n x.toNat = some x := by
  rw [fieldArg, if_pos x.isLt, BitVec.ofNat_toNat, BitVec.setWidth_eq]

/-- A pin operand that prints a pin code is read as that code (R85, R87). -/
theorem code_of_pinArgOf {c : PinCode} {a : PinArg} (h : pinArgOf c = some a) : a.code = some c := by
  unfold pinArgOf at h
  split at h
  · next hnopin =>
    obtain rfl := Option.some.inj h
    exact congrArg some hnopin.symm
  · split at h
    · next hindex =>
      obtain rfl := Option.some.inj h
      rw [PinArg.code, if_pos hindex, BitVec.ofNat_toNat, BitVec.setWidth_eq]
    · exact nomatch h

/-! ## Lines -/

/-- The line that prints a command assembles to the command's word (R85..R87). -/
theorem assemble_lineOf {i : Instr} {l : AsmLine} (h : lineOf i = some l) : assemble l = some (encode i) := by
  cases i with
  | bind role port pin =>
    simp only [lineOf, Option.bind_eq_bind, Option.bind_eq_some_iff, Option.pure_def, Option.some.injEq] at h
    obtain ⟨p, hp, rfl⟩ := h
    simp only [assemble, fieldArg_toNat, code_of_pinArgOf hp]
    rfl
  | init port m n c s =>
    simp only [lineOf, Option.bind_eq_bind, Option.bind_eq_some_iff, Option.pure_def, Option.some.injEq] at h
    obtain ⟨m', hm, n', hn, c', hc, s', hs, rfl⟩ := h
    simp only [assemble, fieldArg_toNat, code_of_pinArgOf hm, code_of_pinArgOf hn, code_of_pinArgOf hc,
      code_of_pinArgOf hs]
    rfl
  | setdelay ticks =>
    obtain rfl := Option.some.inj h
    have hrange : -32768 ≤ ticks.toInt ∧ ticks.toInt ≤ 32767 :=
      ⟨ticks.le_toInt, Int.le_of_lt_add_one ticks.toInt_lt⟩
    rw [assemble, if_pos hrange, BitVec.ofInt_toInt]
  | transfer val ord =>
    obtain rfl := Option.some.inj h
    rw [assemble, fieldArg_toNat]
    rfl
  | writecs lvl =>
    obtain rfl := Option.some.inj h
    cases lvl <;> rfl
  | isready => exact Option.some.inj h ▸ rfl
  | trigger => exact Option.some.inj h ▸ rfl
  | clear => exact Option.some.inj h ▸ rfl

/-- Settles O5: a printed command assembles to its own word, which is the word it was decoded from; every other word is
a `.word` line. -/
theorem assembleOfDisassembleIsTheWord : Obligations.AssembleOfDisassembleIsTheWord := by
  intro w
  unfold disassemble
  split
  · exact fieldArg_toNat w
  · next i hdec =>
    cases hline : lineOf i with
    | none => exact fieldArg_toNat w
    | some l =>
      obtain ⟨hword, -⟩ := encodeOfDecodeIsTheWord w i hdec
      rw [Option.getD_some, assemble_lineOf hline, hword]

end Sys2Proof.Machine
end

section
/-! PROOFS. A word of no row (rules R82, R203): its acceptance raises ILLEGAL_COMMAND and does nothing else. -/

namespace Sys2Proof.Machine

theorem decodeWord_error_of_no_row (w : Word) (h : ∀ k : Opcode, w &&& k.mask ≠ k.pattern) :
    ∃ e, decodeWord w = .error e := by
  cases hdec : decodeWord w with
  | error e => exact ⟨e, rfl⟩
  | ok i =>
    obtain ⟨k, hk, -⟩ := row_of_decodeWord w i hdec
    exact absurd hk (h k)

theorem acceptWord_error {w : Word} {e : DecodeError} (s : State) (h : decodeWord w = .error e) :
    acceptWord w s = .next (s.withBlk ((s.blk.accept w).raise .illegalCommand)) := by
  rw [acceptWord, h]

/-- Settles O7: a word of no row decodes to an error, so its acceptance is the raise of ILLEGAL_COMMAND. -/
theorem illegalWordOnlySetsStatus : Obligations.IllegalWordOnlySetsStatus := by
  refine ⟨decodeWord_of_row, fun s w rest hrow hag hidle hoff => ?illegal, fun k => by cases k <;> decide⟩
  obtain ⟨e, hdec⟩ := decodeWord_error_of_no_row w hrow
  refine ⟨⟨e, hdec⟩, _, (step_accepts s w rest hag hidle hoff).trans (acceptWord_error _ hdec), ?_⟩
  exact ⟨SameOutside.refl _, rfl, rfl, rfl, rfl, rfl, rfl, rfl, rfl, rfl, rfl, rfl⟩

end Sys2Proof.Machine
end

section
/-! PROOFS. BIND, INIT, ISREADY and SETDELAY (rules R100..R112): their operands' checks, the INITSTAT bits they write,
what each records and leaves, and that nothing but a successful BIND, a successful INIT or reset writes a binding. -/

namespace Sys2Proof.Machine

/-! ## Acceptance touches the block alone -/

theorem sameOutside_withBlk (s : State) (b : SeqState) : SameOutside s (s.withBlk b) := SameOutside.refl s

/-- A command without micro-operations is complete when its acceptance is (R100, R206). -/
theorem Accepts.idle_of_no_microOps {sp : SamplePoint} {b b' : SeqState} {i : Instr} (h : Accepts sp b i b')
    (hi : hasMicroOps i = false) : b'.busy = false := by
  cases h with
  | transfers i val ord htransfer => obtain rfl | ⟨rfl, -, -⟩ := htransfer <;> exact nomatch hi
  | triggers => exact nomatch hi
  | drivesSelect => exact nomatch hi
  | _ => rfl

/-- Settles O9: none of the four commands has micro-operations. -/
theorem configurationTouchesNoPort : Obligations.ConfigurationTouchesNoPort := by
  intro s i hconfig
  have hi : hasMicroOps i = false := by
    obtain ⟨_, _, _, rfl⟩ | ⟨_, _, _, _, _, rfl⟩ | rfl | ⟨_, rfl⟩ := hconfig <;> rfl
  obtain ⟨b, hb, hacc⟩ := exec_accepts i s
  exact ⟨_, hb, hacc.idle_of_no_microOps hi, sameOutside_withBlk s b⟩

/-! ## The checks of the pin codes -/

/-- The pin codes a role may not be bound with (R76, R201). -/
theorem pinLegal_eq_false_iff (r : Role) (p : PinCode) :
    pinLegal r p = false ↔ 7 < p.toNat ∧ (p = 15#4 → r = .clk ∨ r = .sel) := by
  rw [← Bool.not_eq_true, pinLegal_iff, not_or, not_le, not_and]
  cases r <;> simp

/-- The pin codes INIT takes, in R104's words. -/
theorem initPinsLegal_iff (m n c l : PinCode) :
    initPinsLegal m n c l = true ↔
      (m.toNat ≤ 7 ∨ m = 15#4) ∧ (n.toNat ≤ 7 ∨ n = 15#4) ∧ c.toNat ≤ 7 ∧ l.toNat ≤ 7 := by
  simp [initPinsLegal, pinLegal_iff, and_assoc]

/-- The pin codes INIT rejects (R104, R201). -/
theorem initPinsLegal_eq_false_iff (m n c l : PinCode) :
    initPinsLegal m n c l = false ↔
      (7 < m.toNat ∧ m ≠ 15#4) ∨ (7 < n.toNat ∧ n ≠ 15#4) ∨ 7 < c.toNat ∨ 7 < l.toNat := by
  rw [← Bool.not_eq_true, initPinsLegal_iff]
  simp only [not_and_or, not_or, not_le, ne_eq]

/-- Settles O12: either way the acceptance is the raise of PIN_INDEX_OUT_OF_RANGE. -/
theorem rejectedPinChangesOnlyStatus : Obligations.RejectedPinChangesOnlyStatus := by
  intro s i hrejected
  have hraise : exec i s = .next (s.withBlk ((s.blk.accept (encode i)).raise .pinIndexOutOfRange)) := by
    obtain ⟨role, port, pin, rfl, hpin⟩ | ⟨port, m, n, c, l, rfl, hpins⟩ := hrejected
    · exact exec_bind_illegal s role port pin ((pinLegal_eq_false_iff role pin).mpr hpin)
    · exact exec_init_illegal s port m n c l ((initPinsLegal_eq_false_iff m n c l).mpr hpins)
  exact ⟨_, hraise, sameOutside_withBlk s _, ⟨rfl, rfl, rfl⟩, rfl, rfl, rfl, rfl, rfl, rfl, rfl⟩

/-! ## INITSTAT -/

/-- Writing one INITSTAT bit leaves the others (R25). -/
theorem getLsbD_withInitBit (v : BitVec 3) (n k : Nat) (p : Bool) (hk : k < 3) :
    (withInitBit v n p).getLsbD k = if n = k then p else v.getLsbD k := by
  have hone : (1#3 <<< n).getLsbD k = decide (n = k) := by
    rw [← BitVec.twoPow_eq, BitVec.getLsbD_twoPow, Bool.and_eq_right_iff_imp, decide_eq_true_eq, decide_eq_true_eq]
    rintro rfl
    exact hk
  cases p with
  | true =>
    rw [withInitBit, if_pos rfl, BitVec.getLsbD_or, hone]
    by_cases h : n = k <;> simp [h]
  | false =>
    rw [withInitBit, if_neg Bool.false_ne_true, BitVec.getLsbD_and, BitVec.getLsbD_not, hone]
    by_cases h : n = k <;> simp [h, hk]

/-- BIND writes its role's INITSTAT bit and leaves the others (R101, R102). -/
theorem getLsbD_initstatAfterBind (v : BitVec 3) (r : Role) (port : PortAddr) (k : Nat) (hk : k < 3) :
    (initstatAfterBind v r port).getLsbD k = if initBit r = some k then decide (port ≠ nullPort) else v.getLsbD k := by
  have hport : (port != nullPort) = decide (port ≠ nullPort) := Bool.eq_iff_iff.mpr (by simp)
  rw [initstatAfterBind, ← hport]
  cases initBit r with
  | none => rfl
  | some n => simp only [getLsbD_withInitBit v n k _ hk, Option.some.injEq]

/-- The four BINDs to one port write all three INITSTAT bits as INIT does, whatever INITSTAT was (R106). -/
theorem initstat_after_four_binds (v : BitVec 3) (port : PortAddr) :
    initstatAfterBind (initstatAfterBind (initstatAfterBind (initstatAfterBind v .mosi port) .miso port) .clk port)
      .sel port = initstatAfterInit port := by
  apply BitVec.eq_of_getLsbD_eq
  intro k hk
  simp only [getLsbD_initstatAfterBind _ _ _ k hk, initstatAfterInit, initBit]
  by_cases h : port = nullPort
  · interval_cases k <;> simp [h]
  · interval_cases k <;> simp [h]

/-! ## What BIND and INIT record -/

/-- Settles O10: a legal pin code's acceptance records the binding and completes. -/
theorem bindRecordsTheBinding : Obligations.BindRecordsTheBinding := by
  intro s role port pin hpin
  have hbits := getLsbD_initstatAfterBind s.blk.initstat role port
  refine ⟨_, exec_bind_legal s role port pin ((pinLegal_iff role pin).mpr hpin), sameOutside_withBlk s _,
    bindings_get_set_same _ _ _, fun q hq => bindings_get_set_other _ _ _ _ hq, ?_, ?_, ?_, rfl, rfl, rfl, rfl,
    rfl, rfl, rfl, rfl⟩
  · exact (hbits 0 (by decide)).trans (by cases role <;> rfl)
  · exact (hbits 1 (by decide)).trans (by cases role <;> rfl)
  · exact (hbits 2 (by decide)).trans (by cases role <;> rfl)

/-- Settles O11: legal pin codes' acceptance writes the whole table and INITSTAT and completes. -/
theorem initBindsAllRoles : Obligations.InitBindsAllRoles := by
  intro s port m n c l hm hn hc hl
  refine ⟨_, exec_init_legal s port m n c l ((initPinsLegal_iff m n c l).mpr ⟨hm, hn, hc, hl⟩),
    sameOutside_withBlk s _, rfl, rfl, rfl, rfl, ?_, rfl, rfl, rfl, rfl, rfl, rfl, rfl, rfl⟩
  exact (ite_not ..).symm

/-- Settles O13: the four BINDs write each role's binding once, and together all of INITSTAT. -/
theorem initEqualsFourBinds : Obligations.InitEqualsFourBinds := by
  intro s port m n c l hm hn hc hl
  have hinit := (initPinsLegal_iff m n c l).mpr ⟨hm, hn, hc, hl⟩
  have hpins := hinit
  simp only [initPinsLegal, Bool.and_eq_true] at hpins
  obtain ⟨⟨⟨hmosi, hmiso⟩, hclk⟩, hsel⟩ := hpins
  exact ⟨_, _, _, _, _, exec_init_legal s port m n c l hinit, exec_bind_legal _ .mosi port m hmosi,
    exec_bind_legal _ .miso port n hmiso, exec_bind_legal _ .clk port c hclk, exec_bind_legal _ .sel port l hsel,
    rfl, initstat_after_four_binds s.blk.initstat port, rfl⟩

/-! ## What ISREADY reports -/

/-- ISREADY's byte in INITSTAT's own terms (R108). -/
theorem readyByte_eq (b : SeqState) : readyByte b = if b.initstat = 0b111#3 then 0x01#8 else 0x00#8 := by
  simp only [readyByte, ready_iff_initstat]

/-- Settles O14: acceptance, which leaves INITSTAT, then the byte in RESULT and completion. -/
theorem isreadyReportsReadiness : Obligations.IsreadyReportsReadiness := fun s =>
  ⟨_, exec_isready s, sameOutside_withBlk s _, readyByte_eq _, rfl, rfl, ⟨rfl, rfl, rfl⟩, rfl, rfl, rfl, rfl⟩

/-- Settles O15: ISREADY reports INITSTAT, which the invariant ties to the table's ports. -/
theorem readinessMeansNonNullPorts : Obligations.ReadinessMeansNonNullPorts := by
  intro s t h hexec
  obtain ⟨u, hu, -, hresult, -⟩ := isreadyReportsReadiness s
  obtain rfl := Host.Outcome.next.inj (hu.symm.trans hexec)
  have hports := initstat_all s.blk.bind
  rw [← h.initstatBits] at hports
  rw [hresult]
  by_cases hready : s.blk.initstat = 0b111#3
  · rw [if_pos hready]
    exact ⟨iff_of_true rfl (hports.mp hready), fun hne => absurd rfl hne⟩
  · rw [if_neg hready]
    exact ⟨iff_of_false (by decide) (mt hports.mpr hready), fun _ => rfl⟩

/-! ## What SETDELAY stores -/

/-- Settles O16: the operand is positive in one of the two ranges and not in the other. -/
theorem setdelayStoresPositiveTicks : Obligations.SetdelayStoresPositiveTicks := by
  intro s ticks
  have hrange := ticksPositive_iff ticks
  cases hpos : ticksPositive ticks with
  | true =>
    obtain ⟨hlow, hhigh⟩ := hrange.mp hpos
    exact ⟨_, exec_setdelay_positive s ticks hpos, sameOutside_withBlk s _, fun _ => rfl, fun h => by omega,
      rfl, rfl, rfl, rfl, rfl, rfl, rfl, rfl, rfl⟩
  | false =>
    rw [hpos] at hrange
    exact ⟨_, exec_setdelay_nonpositive s ticks hpos, sameOutside_withBlk s _,
      fun h => Bool.noConfusion (hrange.mpr h), fun _ => rfl, rfl, rfl, rfl, rfl, rfl, rfl, rfl, rfl, rfl⟩

/-! ## What writes a binding -/

/-- Acceptance writes a role's binding only for a successful BIND of the role or a successful INIT (R103). -/
theorem Accepts.binding_eq {sp : SamplePoint} {b b' : SeqState} {i : Instr} (h : Accepts sp b i b') (r : Role) :
    b'.bind.get r = b.bind.get r ∨ (b'.code = 0#4 ∧
      ((∃ port pin, i = .bind r port pin ∧ b'.bind.get r = { port := port, pin := pin }) ∨
       ∃ port m n c l, i = .init port m n c l ∧ (b'.bind.get r).port = port)) := by
  cases h with
  | binds role port pin hpin =>
    by_cases hr : r = role
    · subst hr
      exact .inr ⟨rfl, .inl ⟨port, pin, rfl, bindings_get_set_same _ _ _⟩⟩
    · exact .inl (bindings_get_set_other _ _ _ _ hr)
  | inits port m n c l hpins => exact .inr ⟨rfl, .inr ⟨port, m, n, c, l, rfl, by cases r <;> rfl⟩⟩
  | _ => exact .inl rfl

/-- Settles O41: of the steps of the block, only the acceptance of a successful BIND or INIT writes a binding. -/
theorem onlyBindInitAndResetWriteBindings : Obligations.OnlyBindInitAndResetWriteBindings := by
  intro s t r h hne
  obtain ⟨rest, hag, -⟩ | hby | ⟨hturn, hblk⟩ := step_cases s t h
  · exact .inl ⟨rest, hag⟩
  · exact absurd (by rw [hby.blk]) hne
  · refine .inr ⟨hturn, ?_⟩
    cases hblk with
    | completes hbusy hhold hops => exact absurd (by rw [withBlk_blk, finish_bind]) hne
    | performs e rest _ ev hbusy hhold hops hperf => exact absurd (by rw [hperf.blk]) hne
    | accepts w words i b hidle hoff hdec hacc =>
      obtain ⟨hcode, ⟨port, pin, rfl, hget⟩ | ⟨port, m, n, c, l, rfl, hport⟩⟩ :=
        (hacc.binding_eq r).resolve_left hne
      · exact ⟨hidle, hcode, w, words, hoff, .inl ⟨port, pin, hdec, hget⟩⟩
      · exact ⟨hidle, hcode, w, words, hoff, .inr ⟨port, m, n, c, l, hdec, hport⟩⟩
    | _ => exact absurd rfl hne

end Sys2Proof.Machine
end

section
/-! PROOFS. The port primitives and the hold (rules R131..R141): SETBIT and CLEARBIT change one bit of one register,
READBIT reads once, and DELAY waits its ticks. -/

namespace Sys2Proof.Machine

/-! ## A step that performs a micro-operation -/

/-- A running block with no hold in progress performs the head of its list (R206). -/
theorem step_micro (s : State) (e : MicroEntry) (rest : List MicroEntry) (hag : s.agenda = [])
    (hbusy : s.blk.busy = true) (hhold : s.blk.holdLeft = 0) (hops : s.blk.ops = e :: rest) :
    step s = performMicro e rest s := by
  rw [step_running s hag hbusy, runningStep_micro s e rest hhold hops]

/-- A micro-operation goes on with the same command (R31). -/
theorem Performed.sameCommand {e : MicroEntry} {rest : List MicroEntry} {s t : State} {ev : BusEvent}
    (hp : Performed e rest s t ev) (hbusy : s.blk.busy = true) : SameCommand s.blk t.blk := by
  rw [hp.blk]
  exact ⟨hbusy, rfl, rfl, rfl, rfl, rfl, rfl⟩

theorem Performed.ops_eq {e : MicroEntry} {rest : List MicroEntry} {s t : State} {ev : BusEvent}
    (hp : Performed e rest s t ev) : t.blk.ops = rest := by
  rw [hp.blk]

/-! ## SETBIT and CLEARBIT -/

/-- Either primitive shows a read-modify-write of its register (R131, R133). -/
theorem exists_rmw_of_shows {op : MicroOp} {a : PortAddr} {i : PinCode} {ev : BusEvent}
    (hop : op = .setBit a i ∨ op = .clearBit a i) (h : op.shows ev) :
    ∃ clr set left, ev = .rmw a clr set left := by
  cases ev with
  | rmw b clr set left => obtain rfl | rfl := hop <;> exact ⟨clr, set, left, by rw [h.1]⟩
  | read b v => obtain rfl | rfl := hop <;> exact h.elim
  | hold n => obtain rfl | rfl := hop <;> exact h.elim

/-- Either primitive leaves every other pin of its register (R132, R134). -/
theorem pinAfter_other_pin {op : MicroOp} {a : PortAddr} {i j : PinCode} (hop : op = .setBit a i ∨ op = .clearBit a i)
    (hj : j ≠ i) (level : Bool) : pinAfter a j op level = level := by
  obtain rfl | rfl := hop <;> simp [pinAfter, hj.symm]

/-- A read-modify-write touches neither the accumulator nor the hold. -/
theorem Performed.rmw_acc_hold {e : MicroEntry} {rest : List MicroEntry} {s t : State} {a : PortAddr}
    {clr set left : Byte} (hp : Performed e rest s t (.rmw a clr set left)) :
    t.blk.acc = s.blk.acc ∧ t.blk.holdLeft = s.blk.holdLeft := by
  have hshows := hp.shows
  rw [hp.blk]
  obtain ⟨c, op⟩ := e
  cases op with
  | delay n => exact hshows.elim
  | _ => exact ⟨rfl, rfl⟩

/-- Under plain registers a read-modify-write leaves the masks of what its register held there, and leaves every other
register (R55). -/
theorem Performed.rmw_plain {e : MicroEntry} {rest : List MicroEntry} {s t : State} {a : PortAddr}
    {clr set left : Byte} (hp : Performed e rest s t (.rmw a clr set left)) (hwf : s.ports.wf = true)
    (hans : s.answers = []) :
    t.ports.read a.toNat = rmwValue (s.ports.read a.toNat) clr set ∧
      ∀ b, b ≠ a.toNat → t.ports.read b = s.ports.read b := by
  obtain ⟨old, hvalue, rfl⟩ := hp.fromBus
  obtain rfl := Option.some.inj ((busValue_plain s a hans).symm.trans hvalue)
  rw [hp.ports]
  exact ⟨read_write_same s.ports 1 a.toNat _ hwf, fun b hb => read_write_other s.ports a.toNat b _ hb⟩

/-- Settles O29: either primitive is one read-modify-write of its register (`exists_rmw_of_shows`), whose masks name the
one pin (`Performed.plain`). -/
theorem setAndClearDriveOneBit : Obligations.SetAndClearDriveOneBit := by
  intro s c op rest a i hwf ⟨hag, hans⟩ hbusy hhold hops hop ha hi
  have hlegal : op.legal s.blk.delay = true := by
    obtain rfl | rfl := hop <;> simpa [MicroOp.legal, pinIsIndex, nullPort] using ⟨ha, hi⟩
  obtain ⟨t, ev, ht, hp⟩ := performMicro_legal { cycle := c, op := op } rest s hlegal (by simp [State.answered, hans])
  obtain ⟨-, -, hpins, -⟩ := hp.plain s.blk.delay hlegal hwf hans
  obtain ⟨clr, set, left, rfl⟩ := exists_rmw_of_shows hop hp.shows
  obtain ⟨hsame, hother⟩ := hp.rmw_plain hwf hans
  obtain ⟨hacc, hhold'⟩ := hp.rmw_acc_hold
  obtain ⟨hbusy', hcmd, hcode, hresult, hsettings⟩ := hp.sameCommand hbusy
  refine ⟨t, _, (step_micro s _ rest hag hbusy hhold hops).trans ht, ?set, ?clear, ?pins, hother, hp.trace, hp.shows,
    hp.ops_eq, hbusy', hhold'.trans hhold, hacc, hcmd, hcode, hresult, hsettings, hp.offered, hp.cfg⟩
  case set =>
    rintro rfl
    obtain ⟨-, rfl, rfl⟩ := hp.shows
    exact hsame.trans (rmwValue_set _ _)
  case clear =>
    rintro rfl
    obtain ⟨-, rfl, rfl⟩ := hp.shows
    exact hsame.trans (rmwValue_clear _ _)
  case pins =>
    intro j hj hne
    rw [hpins a j hj, pinAfter_other_pin hop hne]

/-! ## DELAY -/

/-- A DELAY starts its hold at once, whatever the bus would answer (R139). -/
theorem performMicro_delay (c : Fin 8) (n : Ticks) (rest : List MicroEntry) (s : State) :
    ∃ t, performMicro { cycle := c, op := .delay n } rest s = .next t ∧
      Performed { cycle := c, op := .delay n } rest s t (.hold n) :=
  ⟨_, rfl, rfl, trivial, rfl, rfl, rfl, rfl, rfl, rfl, rfl⟩

/-- Settles O32: the start of the hold (`performMicro_delay`), then k of its ticks (`steps_ticks`), each of which writes
HOLDLEFT alone. -/
theorem holdWaitsItsTicks : Obligations.HoldWaitsItsTicks := by
  intro s c n rest k hag hbusy hhold hops hk
  obtain ⟨u, hu, hp⟩ := performMicro_delay c n rest s
  have hagu : u.agenda = [] := hp.agenda.trans hag
  have holdu : u.blk.holdLeft = n.toNat := by rw [hp.blk]; rfl
  have haccu : u.blk.acc = s.blk.acc := by rw [hp.blk]; rfl
  obtain ⟨hbusyu, hcmd, hcode, hresult, hsettings⟩ := hp.sameCommand hbusy
  have start : Steps 1 s u :=
    (steps_succ 0 s u).mpr ⟨u, (step_micro s _ rest hag hbusy hhold hops).trans hu, (steps_zero u u).mpr rfl⟩
  have ticks := steps_ticks k u hagu hbusyu (hk.trans_eq holdu.symm)
  exact ⟨_, steps_append 1 k _ _ _ start ticks, congrArg (· - k) holdu, hp.ops_eq, hp.trace, hp.ports, hbusyu, haccu,
    hcmd, hcode, hresult, hsettings, hp.answers, hp.offered, hagu, hp.cfg⟩

/-! ## READBIT -/

theorem pinLevel_eq_getLsbD (v : Byte) (i : PinCode) : pinLevel v i = v.getLsbD i.toNat := by
  rw [pinLevel, BitVec.getLsbD_ushiftRight, Nat.add_zero]

/-- A READBIT whose transaction the bus answers is one read of the value it answers with, whatever the later answers
(R54, R135). -/
theorem performMicro_readBit_of_busValue (c : Fin 8) (a : PortAddr) (i : PinCode) (ord : BitOrder)
    (rest : List MicroEntry) (s : State) (v : Byte) (ha : a ≠ nullPort) (hi : pinIsIndex i = true)
    (hv : s.busValue a = some v) :
    ∃ t, performMicro { cycle := c, op := .readBit a i ord } rest s = .next t ∧
      Performed { cycle := c, op := .readBit a i ord } rest s t (.read a v) := by
  rw [performMicro_readBit c a i ord rest s ha hi, portRead, hv]
  exact ⟨_, rfl, rfl, hv, rfl, rfl, rfl, rfl, rfl, rfl, rfl⟩

/-- Settles O30: the register's value or the supplied one is the bus's (R57), so the step is that one read. -/
theorem readBitReadsOnce : Obligations.ReadBitReadsOnce := by
  intro s c rest a i ord v hag hbusy hhold hops ha hi hanswer
  have hv : s.busValue a = some v := by
    obtain ⟨hans, rfl⟩ | ⟨more, hans⟩ := hanswer
    · exact busValue_plain s a hans
    · exact busValue_supplied s a v more hans
  obtain ⟨t, ht, hp⟩ := performMicro_readBit_of_busValue c a i ord rest s v ha (decide_eq_true hi) hv
  have hacc : t.blk.acc = accumulate s.blk.acc (v.getLsbD i.toNat) c ord := by
    rw [hp.blk, ← pinLevel_eq_getLsbD]; rfl
  have hhold' : t.blk.holdLeft = 0 := by rw [hp.blk]; exact hhold
  obtain ⟨hbusy', hcmd, hcode, hresult, hsettings⟩ := hp.sameCommand hbusy
  exact ⟨t, (step_micro s _ rest hag hbusy hhold hops).trans ht, hp.trace, hp.ports, hacc, hp.ops_eq, hbusy', hcode,
    hresult, hsettings, hhold', hcmd, hp.offered, hp.cfg⟩

end Sys2Proof.Machine
end

section
/-! PROOFS. TRANSFER's accumulator (rules R151, R154): where the bit sampled in each cycle stands. -/

namespace Sys2Proof.Machine

/-! ## One more bit -/

theorem getLsbD_accumulate_msbFirst (acc : Byte) (b : Bool) (c : Fin 8) (j : Nat) :
    (accumulate acc b c .msbFirst).getLsbD j = if j = 0 then b else decide (j < 8) && acc.getLsbD (j - 1) := by
  simp only [accumulate, BitVec.getLsbD_or, BitVec.getLsbD_shiftLeft, BitVec.getLsbD_setWidth, BitVec.getLsbD_ofBool]
  by_cases hj : j = 0 <;> simp [hj]

theorem getLsbD_accumulate_lsbFirst (acc : Byte) (b : Bool) (c : Fin 8) (j : Nat) :
    (accumulate acc b c .lsbFirst).getLsbD j = (acc.getLsbD j || (decide (j = c.val) && b)) := by
  simp only [accumulate, BitVec.getLsbD_or, BitVec.getLsbD_shiftLeft, BitVec.getLsbD_setWidth, BitVec.getLsbD_ofBool]
  obtain hlt | rfl | hgt := Nat.lt_trichotomy j c.val
  · simp [hlt, hlt.ne]
  · simp
  · simp [hgt.ne', Nat.sub_ne_zero_of_lt hgt]

/-! ## All eight cycles -/

/-- The position outBit takes cycle c's bit from (R151). -/
def bitPosition (ord : BitOrder) (c : Fin 8) : Nat := if ord = .msbFirst then 7 - c.val else c.val

theorem outBit_eq_getLsbD (val : Byte) (ord : BitOrder) (c : Fin 8) :
    outBit val ord c = val.getLsbD (bitPosition ord c) := by
  cases ord <;> rfl

/-- Two bytes that agree at the eight cycles' positions are equal: the positions are all of 0..7. -/
theorem byte_eq_of_bitPosition {x y : Byte} (ord : BitOrder)
    (h : ∀ c : Fin 8, x.getLsbD (bitPosition ord c) = y.getLsbD (bitPosition ord c)) : x = y := by
  apply BitVec.eq_of_getLsbD_eq
  intro j hj
  cases ord with
  | msbFirst =>
    have hpos : bitPosition .msbFirst ⟨7 - j, by omega⟩ = j := by simp only [bitPosition, if_true]; omega
    exact hpos ▸ h ⟨7 - j, by omega⟩
  | lsbFirst => exact h ⟨j, hj⟩

/-- The accumulator after all eight cycles, from 0x00 (R152, R154). -/
def accumulateAll (sampled : Fin 8 → Bool) (ord : BitOrder) : Byte :=
  bitCycles.foldl (fun acc c => accumulate acc (sampled c) c ord) 0x00#8

/-- The bit sampled in cycle c stands where outBit takes its bit from (R154). -/
theorem getLsbD_accumulateAll (sampled : Fin 8 → Bool) (ord : BitOrder) (c : Fin 8) :
    (accumulateAll sampled ord).getLsbD (bitPosition ord c) = sampled c := by
  simp only [accumulateAll, bitCycles, List.foldl_cons, List.foldl_nil]
  cases ord with
  | msbFirst =>
    simp only [getLsbD_accumulate_msbFirst, BitVec.getLsbD_zero]
    fin_cases c <;> simp [bitPosition]
  | lsbFirst =>
    simp only [getLsbD_accumulate_lsbFirst, BitVec.getLsbD_zero]
    fin_cases c <;> simp [bitPosition]

/-- Sampling the bits driven gives the byte driven back (R157). -/
theorem accumulateAll_outBit (val : Byte) (ord : BitOrder) : accumulateAll (outBit val ord) ord = val :=
  byte_eq_of_bitPosition ord fun c => by rw [getLsbD_accumulateAll, outBit_eq_getLsbD]

/-- MSB first, each bit that comes in moves the highest bit that can be 1 up by one. -/
theorem foldl_accumulate_high_zero (sampled : Fin 8 → Bool) (cs : List (Fin 8)) : ∀ (acc : Byte) (n : Nat),
    (∀ j, n ≤ j → acc.getLsbD j = false) → ∀ j, n + cs.length ≤ j →
      (cs.foldl (fun acc c => accumulate acc (sampled c) c .msbFirst) acc).getLsbD j = false := by
  induction cs with
  | nil => exact fun acc n h => h
  | cons c cs ih =>
    intro acc n h j hj
    rw [List.length_cons] at hj
    refine ih _ (n + 1) (fun k hk => ?_) j (by omega)
    rw [getLsbD_accumulate_msbFirst, if_neg (by omega), h (k - 1) (by omega), Bool.and_false]

/-- Settles O26: the definition, the positions of the sampled bits (`getLsbD_accumulateAll`), their agreement with
outBit (`accumulateAll_outBit`), and the zeros above the bits that have come in (`foldl_accumulate_high_zero`). -/
theorem accumulationPlacesEachBit : Obligations.AccumulationPlacesEachBit := by
  refine ⟨fun acc b c => ⟨rfl, rfl⟩, getLsbD_accumulateAll, accumulateAll_outBit, fun sampled k => ?_⟩
  refine foldl_accumulate_high_zero sampled _ 0x00#8 0 (fun j _ => BitVec.getLsbD_zero) 7 ?_
  rw [List.length_take]
  omega

end Sys2Proof.Machine
end

section
/-! PROOFS. TRANSFER and CLEAR from acceptance to completion (rules R152..R160, R204, R205): the list loaded, the end
that performing it comes to, and RESULT as the bits read. -/

namespace Sys2Proof.Machine

/-! ## The checks, in the words of the bindings -/

theorem mosiPresent_iff (b : SeqState) : b.mosiPresent = true ↔ b.bind.mosi.pin ≠ 15#4 := bne_iff_ne

theorem misoPresent_iff (b : SeqState) : b.misoPresent = true ↔ b.bind.miso.pin ≠ 15#4 := bne_iff_ne

theorem misoInvalid_eq_false_iff (b : SeqState) :
    b.misoInvalid = false ↔ ¬ (b.bind.miso.pin ≠ 15#4 ∧ b.bind.miso.port = 0#12) := by
  rw [← Bool.not_eq_true, SeqState.misoInvalid, Bool.and_eq_true, misoPresent_iff, beq_iff_eq, nullPort]

/-! ## Acceptance -/

/-- The list of a TRANSFER accepted in state s (R155). -/
def transferList (s : State) (val : Byte) (ord : BitOrder) : List MicroEntry :=
  transferOps s.cfg.samplePoint s.blk val ord

/-- The state in which a TRANSFER or CLEAR that has passed its checks starts on its list (R206). -/
def transferStart (s : State) (i : Instr) (val : Byte) (ord : BitOrder) : State :=
  s.withBlk ((s.blk.accept (encode i)).load (transferList s val ord))

/-- BUSY and CMD, which acceptance writes first, play no part in the list. -/
theorem transferOps_accept (sp : SamplePoint) (b : SeqState) (w : Word) (val : Byte) (ord : BitOrder) :
    transferOps sp (b.accept w) val ord = transferOps sp b val ord := rfl

/-- A TRANSFER or CLEAR of a ready block with a valid MISO binding passes its checks (R152). -/
theorem exec_transfer_valid (s : State) (i : Instr) (val : Byte) (ord : BitOrder) (hi : IsTransfer i val ord)
    (hready : s.blk.initstat = 0b111#3) (hmiso : ¬ (s.blk.bind.miso.pin ≠ 15#4 ∧ s.blk.bind.miso.port = 0#12)) :
    exec i s = .next (transferStart s i val ord) := by
  rw [exec_transfer s i val ord hi, acceptTransfer_valid s _ val ord ((ready_iff_initstat _).mpr hready)
    ((misoInvalid_eq_false_iff _).mpr hmiso), transferOps_accept]
  rfl

/-- The list of a TRANSFER that passes its checks is legal (R138). -/
theorem legal_transferList (s : State) (val : Byte) (ord : BitOrder) (h : s.Inv) (hready : s.blk.initstat = 0b111#3)
    (hmiso : ¬ (s.blk.bind.miso.pin ≠ 15#4 ∧ s.blk.bind.miso.port = 0#12)) :
    ∀ e ∈ transferList s val ord, e.op.legal s.blk.delay = true :=
  legal_transferOps s h hready ((misoInvalid_eq_false_iff _).mpr hmiso) s.blk.cmd val ord

theorem dataOps_eq (b : SeqState) (level : Bool) :
    dataOps b level = if b.bind.mosi.pin = 15#4 then [] else [writePin b.bind.mosi level] := by
  simp [dataOps, mosiPresent_iff]

theorem sampleOps_eq (b : SeqState) (ord : BitOrder) (sp here : SamplePoint) :
    sampleOps b ord (sp == here) =
      if b.bind.miso.pin = 15#4 ∨ sp ≠ here then [] else [.readBit b.bind.miso.port b.bind.miso.pin ord] := by
  have hbeq : (sp == here) = true ↔ sp = here := by cases sp <;> cases here <;> decide
  simp only [sampleOps, Bool.and_eq_true, misoPresent_iff, hbeq]
  split <;> split <;> tauto

/-- The list begins in cycle 0 (R30, R155). -/
theorem headCycle_transferOps (sp : SamplePoint) (b : SeqState) (val : Byte) (ord : BitOrder) :
    headCycle (transferOps sp b val ord) 0 = 0 := by
  have hlength := cycleOps_length sp b val ord 0
  rw [transferOps, bitCycles, List.flatMap_cons]
  cases hcycle : cycleOps sp b val ord 0 with
  | nil => rw [hcycle, List.length_nil] at hlength; omega
  | cons op ops => rfl

/-- Settles O17: the loaded list is `transferOps`, written out by `dataOps_eq` and `sampleOps_eq`, and its counts are
`transferOps_length` and `listSteps_transferOps`. -/
theorem transferLoadsItsList : Obligations.TransferLoadsItsList := by
  intro s i val ord hi hready hmiso
  refine ⟨_, exec_transfer_valid s i val ord hi hready hmiso, sameOutside_withBlk s _, ⟨rfl, rfl, rfl⟩, rfl, rfl, rfl,
    rfl, rfl, headCycle_transferOps _ _ val ord, rfl, ?list, ?length, listSteps_transferOps _ _ val ord⟩
  case list =>
    simp only [transferStart, withBlk_blk, load_ops, transferList, transferOps, bitCycles, List.flatMap_cons,
      List.flatMap_nil, List.append_nil, List.append_assoc, cycleOps, dataOps_eq, sampleOps_eq]
    rfl
  case length =>
    refine (transferOps_length _ _ val ord).trans ?_
    simp only [mosiPresent_iff, misoPresent_iff, ite_not]

/-! ## Completion -/

/-- The word of a TRANSFER or CLEAR is one whose completion writes RESULT (R152, R160). -/
theorem cmdReturnsAcc_of_isTransfer (i : Instr) (val : Byte) (ord : BitOrder) (hi : IsTransfer i val ord) :
    cmdReturnsAcc (encode i) = true := by
  rw [cmdReturnsAcc, decodeWord_encode]
  change returnsAcc i.canonical = true
  rw [Instr.canonical]
  obtain rfl | ⟨rfl, -, -⟩ := hi
  · split <;> rfl
  · rfl

/-- The state t in which a TRANSFER accepted in state s ends, `evs` being the events of its list (R155, R205). -/
structure TransferEnd (s : State) (val : Byte) (ord : BitOrder) (t : State) (evs : List BusEvent) : Prop where
  trace    : t.trace = s.trace ++ evs
  shows    : List.Forall₂ (fun (e : MicroEntry) ev => e.op.shows ev) (transferList s val ord) evs
  busy     : t.blk.busy = false
  code     : t.blk.code = 0#4
  settings : SameSettings s.blk t.blk
  ops      : t.blk.ops = []
  holdLeft : t.blk.holdLeft = 0
  result   : t.blk.result = accAfterAll (transferList s val ord) evs 0x00#8
  cfg      : t.cfg = s.cfg
  offered  : t.offered = s.offered
  agenda   : t.agenda = s.agenda
  /-- The registers that no write of the list names (R58). -/
  ports    : ∀ b : Nat,
    (∀ e ∈ transferList s val ord, ∀ a i, e.op = .setBit a i ∨ e.op = .clearBit a i → b ≠ a.toNat) →
    t.ports.read b = s.ports.read b
  /-- Each pin's level, under plain registers (R132, R134). -/
  pins     : s.answers = [] → ∀ (a : PortAddr) (p : PinCode), p.toNat ≤ 7 →
    t.pinAt a p = pinAfterAll a p (transferList s val ord) (s.pinAt a p)
  /-- RESULT under plain registers, when one pin is all the list reads (R136, R154). -/
  resultOfPin : s.answers = [] → ∀ (a : PortAddr) (p : PinCode), p.toNat ≤ 7 →
    (∀ e ∈ transferList s val ord, ∀ b j o, e.op = .readBit b j o → b = a ∧ j = p) →
    t.blk.result = accPlain a p (transferList s val ord) (s.pinAt a p) 0x00#8

/-- Performing the list of a TRANSFER or CLEAR and completing leads to its end (R205). -/
theorem Runs.transferEnd {s u : State} {i : Instr} {val : Byte} {ord : BitOrder} {evs : List BusEvent}
    (hi : IsTransfer i val ord) (hwf : s.ports.wf = true)
    (hlegal : ∀ e ∈ transferList s val ord, e.op.legal s.blk.delay = true)
    (h : Runs (transferList s val ord) (transferStart s i val ord) u evs) :
    TransferEnd s val ord (u.withBlk u.blk.finish) evs := by
  obtain ⟨htrace, hshows⟩ := h.shown
  obtain ⟨hblk, hcfg, hoffered, hagenda⟩ := h.leaves rfl
  have hresult : u.blk.finish.result = accAfterAll (transferList s val ord) evs 0x00#8 := by
    rw [finish_result, hblk]
    exact if_pos (cmdReturnsAcc_of_isTransfer i val ord hi)
  exact {
    trace := htrace
    shows := hshows
    busy := finish_busy _
    code := finish_code _
    settings := by
      refine ⟨(finish_delay _).trans ?_, (finish_initstat _).trans ?_, (finish_bind _).trans ?_⟩ <;> rw [hblk] <;> rfl
    ops := (finish_ops _).trans (by rw [hblk])
    holdLeft := (finish_holdLeft _).trans (by rw [hblk]; rfl)
    result := hresult
    cfg := hcfg
    offered := hoffered
    agenda := hagenda
    ports := h.ports_other
    pins := fun hans => by
      obtain ⟨-, -, hpins, -⟩ := h.plain s.blk.delay hlegal hwf hans
      exact hpins
    resultOfPin := fun hans a p hp hread => by
      obtain ⟨-, -, -, hacc⟩ := h.plain s.blk.delay hlegal hwf hans
      exact hresult.trans (hacc a p hp hread) }

/-- Whatever the bus answers, a TRANSFER or CLEAR that passes its checks comes to its end in the steps of its list
(R204, R205). -/
theorem transfer_ends (s : State) (i : Instr) (val : Byte) (ord : BitOrder) (hi : IsTransfer i val ord) (h : s.Inv)
    (hag : s.agenda = []) (hans : s.answered = true) (hready : s.blk.initstat = 0b111#3)
    (hmiso : ¬ (s.blk.bind.miso.pin ≠ 15#4 ∧ s.blk.bind.miso.port = 0#12)) :
    ∃ t evs, exec i s = .next (transferStart s i val ord) ∧
      Steps (listSteps (transferStart s i val ord).blk.ops) (transferStart s i val ord) t ∧
      TransferEnd s val ord t evs := by
  have hlegal := legal_transferList s val ord h hready hmiso
  obtain ⟨u, evs, hruns, hsteps⟩ := runs_to_completion (transferStart s i val ord) hag rfl rfl hans hlegal
  exact ⟨_, evs, exec_transfer_valid s i val ord hi hready hmiso, hsteps, hruns.transferEnd hi h.portsWf hlegal⟩

/-! ## RESULT, and what was read -/

/-- Eight values beside the eight bit cycles: the c-th goes with cycle c. -/
theorem zip_bitCycles {α : Type} (f : Fin 8 → α) (vs : List Byte) (hlength : vs.length = 8) :
    (bitCycles.map f).zip vs = bitCycles.map fun c => (f c, vs.getD c.val 0x00#8) := by
  have hcycles : bitCycles = List.finRange 8 := rfl
  rw [hcycles]
  refine List.ext_getElem (by simp [hlength]) fun n h₁ h₂ => ?_
  have hn : n < vs.length := (List.length_zip.symm ▸ h₁ : n < min _ _).trans_le (Nat.min_le_right _ _)
  simp [hn]

/-- The list of a TRANSFER without MISO has nothing to read (R159). -/
theorem readsOf_transferList_without_miso (s : State) (val : Byte) (ord : BitOrder)
    (hmiso : s.blk.bind.miso.pin = 15#4) : readsOf (transferList s val ord) = [] := by
  rw [transferList, readsOf_transferOps, if_neg ((misoPresent_iff _).not.mpr (not_not.mpr hmiso))]

section
variable {s t : State} {val : Byte} {ord : BitOrder} {evs : List BusEvent} (h : TransferEnd s val ord t evs)
include h

/-- Without MISO nothing is read, and RESULT is the empty accumulator (R159). -/
theorem TransferEnd.result_without_miso (hmiso : s.blk.bind.miso.pin = 15#4) :
    readValues evs = [] ∧ t.blk.result = 0x00#8 := by
  obtain ⟨hlength, hacc⟩ := accAfterAll_reads _ _ h.shows 0x00#8
  rw [readsOf_transferList_without_miso s val ord hmiso] at hlength hacc
  exact ⟨List.eq_nil_of_length_eq_zero hlength, h.result.trans hacc⟩

/-- With MISO, eight values are read, and RESULT accumulates the bit of MISO's pin in each (R152, R154). -/
theorem TransferEnd.result_with_miso (hmiso : s.blk.bind.miso.pin ≠ 15#4) :
    (readValues evs).length = 8 ∧ t.blk.result =
      accumulateAll (fun c => ((readValues evs).getD c.val 0x00#8).getLsbD s.blk.bind.miso.pin.toNat) ord := by
  have hreads : readsOf (transferList s val ord) = bitCycles.map fun c => (c, s.blk.bind.miso.pin, ord) := by
    rw [transferList, readsOf_transferOps, if_pos ((misoPresent_iff _).mpr hmiso)]
  obtain ⟨hlength, hacc⟩ := accAfterAll_reads _ _ h.shows 0x00#8
  rw [hreads] at hlength hacc
  refine ⟨hlength, h.result.trans (hacc.trans ?_)⟩
  rw [zip_bitCycles _ _ hlength, List.foldl_map]
  simp only [pinLevel_eq_getLsbD]
  rfl

end

/-- A TRANSFER leaves every port register but CLK's and a present MOSI's (R155). -/
theorem TransferEnd.ports_other {s t : State} {val : Byte} {ord : BitOrder} {evs : List BusEvent}
    (h : TransferEnd s val ord t evs) (b : Nat) (hclk : b ≠ s.blk.bind.clk.port.toNat)
    (hmosi : s.blk.bind.mosi.pin ≠ 15#4 → b ≠ s.blk.bind.mosi.port.toNat) : t.ports.read b = s.ports.read b := by
  refine h.ports b fun e he a p hop => ?_
  obtain rfl | ⟨hpresent, rfl⟩ := writes_transferOps _ _ val ord e he a p hop
  · exact hclk
  · exact hmosi ((mosiPresent_iff _).mp hpresent)

/-- Settles O19: the list is performed to its end (`transfer_ends`), and RESULT is what its reads make it
(`TransferEnd.result_without_miso`, `TransferEnd.result_with_miso`). -/
theorem transferCompletesWithTheBitsRead : Obligations.TransferCompletesWithTheBitsRead := by
  intro s i val ord hi h hidle hag hans hready hmiso
  obtain ⟨t, evs, hexec, hsteps, hend⟩ := transfer_ends s i val ord hi h hag hans hready hmiso
  refine ⟨_, t, evs, hexec, hsteps, hend.trace, hend.shows, hend.busy, hend.code, hend.settings, hend.ops,
    hend.holdLeft, hend.cfg, hend.offered, hend.agenda.trans hag, hend.ports_other, hend.result_without_miso,
    fun hpresent => ?_⟩
  obtain ⟨hlength, hresult⟩ := hend.result_with_miso hpresent
  refine ⟨hlength, fun c => ?_⟩
  rw [hresult]
  exact getLsbD_accumulateAll _ ord c

/-- Settles O20: the bits read are the bits driven, and accumulating those gives VAL (`accumulateAll_outBit`). -/
theorem loopbackReturnsTheByte : Obligations.LoopbackReturnsTheByte := by
  intro s val ord h hidle hag hans hready hpin hport
  obtain ⟨t, evs, hexec, hsteps, hend⟩ :=
    transfer_ends s _ val ord (.inl rfl) h hag hans hready fun hinvalid => hport hinvalid.2
  refine ⟨_, t, evs, hexec, hsteps, hend.trace, hend.busy, fun hloop => ?_⟩
  obtain ⟨-, hresult⟩ := hend.result_with_miso hpin
  have hbits : (fun c : Fin 8 => ((readValues evs).getD c.val 0x00#8).getLsbD s.blk.bind.miso.pin.toNat) =
      outBit val ord := funext hloop
  rw [hresult, hbits, accumulateAll_outBit]

/-! ## Absent data roles -/

theorem not_readBit_of_readsOf_eq_nil (ops : List MicroEntry) (h : readsOf ops = []) :
    ∀ e ∈ ops, ∀ a p o, e.op ≠ .readBit a p o := by
  induction ops with
  | nil => exact fun e he => nomatch he
  | cons x rest ih =>
    obtain ⟨c, op⟩ := x
    cases op with
    | readBit a p o => exact nomatch h
    | _ => exact List.forall_mem_cons.mpr ⟨nofun, ih h⟩

/-- Settles O25: the list reads nothing (`readsOf_transferList_without_miso`), so RESULT is the empty accumulator. -/
theorem writeOnlyTransferReturnsZero : Obligations.WriteOnlyTransferReturnsZero := by
  intro s val ord h hidle hag hans hready hmiso
  obtain ⟨t, evs, hexec, hsteps, hend⟩ :=
    transfer_ends s _ val ord (.inl rfl) h hag hans hready fun hinvalid => hinvalid.1 hmiso
  obtain ⟨hreads, hresult⟩ := hend.result_without_miso hmiso
  exact ⟨_, t, evs, hexec,
    not_readBit_of_readsOf_eq_nil _ (readsOf_transferList_without_miso s val ord hmiso), hsteps, hend.busy, hend.code,
    hend.trace, hreads, hresult⟩

/-- Without data roles the list is eight clock pulses, whatever VAL and ORD are (R158). -/
theorem transferList_bare (s : State) (val : Byte) (ord : BitOrder) (hmosi : s.blk.bind.mosi.pin = 15#4)
    (hmiso : s.blk.bind.miso.pin = 15#4) :
    (transferList s val ord).map MicroEntry.op =
      (List.replicate 8 (pulseOps s.blk.bind.clk s.blk.delay)).flatten := by
  simp only [transferList, transferOps, bitCycles, cycleOps, dataOps_eq, sampleOps_eq, hmosi, hmiso]
  rfl

/-- Settles O24: the end of a TRANSFER whose list is eight pulses (`transferList_bare`). -/
theorem bareClockingIgnoresTheByte : Obligations.BareClockingIgnoresTheByte := by
  intro s val ord h hidle hag hans hready hmosi hmiso
  obtain ⟨t, evs, hexec, hsteps, hend⟩ :=
    transfer_ends s _ val ord (.inl rfl) h hag hans hready fun hinvalid => hinvalid.1 hmiso
  have hcount : listSteps (transferList s val ord) = 33 + 16 * s.blk.delay.toNat := by
    rw [transferList, listSteps_transferOps, transferOps_length]
    simp only [mosiPresent_iff, misoPresent_iff, hmosi, hmiso, ne_eq, not_true_eq_false, if_false]
    omega
  obtain ⟨-, hresult⟩ := hend.result_without_miso hmiso
  refine ⟨_, t, evs, hexec, hcount ▸ hsteps, hend.trace, hend.busy, hend.code, hresult, ?_⟩
  have hshows := List.forall₂_map_left_iff.mpr hend.shows
  rwa [transferList_bare s val ord hmosi hmiso] at hshows

end Sys2Proof.Machine
end

section
/-! PROOFS. Pin levels in and after a TRANSFER or CLEAR under plain registers (rules R156, R157, R161, R241): what each
part of a bit cycle does to MOSI's and CLK's pins, and to the accumulator when MISO is MOSI's pin. -/

namespace Sys2Proof.Machine

/-! ## The parts of a bit cycle -/

/-- Micro-operations as the entries of bit cycle c (R30). -/
def cycleEntries (c : Fin 8) (ops : List MicroOp) : List MicroEntry := ops.map fun op => { cycle := c, op := op }

theorem cycleEntries_append (c : Fin 8) (p q : List MicroOp) :
    cycleEntries c (p ++ q) = cycleEntries c p ++ cycleEntries c q := List.map_append

theorem cycleEntries_cons (c : Fin 8) (op : MicroOp) (ops : List MicroOp) :
    cycleEntries c (op :: ops) = { cycle := c, op := op } :: cycleEntries c ops := rfl

theorem transferOps_eq_flatMap (sp : SamplePoint) (b : SeqState) (val : Byte) (ord : BitOrder) :
    transferOps sp b val ord = bitCycles.flatMap fun c => cycleEntries c (cycleOps sp b val ord c) := rfl

section
variable (b : SeqState) (ord : BitOrder) (c : Fin 8)

/-- The data write drives MOSI's pin to its level (R132, R134). -/
theorem pinAfterAll_dataOps (level l : Bool) (hmosi : b.mosiPresent = true) :
    pinAfterAll b.bind.mosi.port b.bind.mosi.pin (cycleEntries c (dataOps b level)) l = level := by
  cases level <;> simp [dataOps, hmosi, cycleEntries, writePin, pinAfterAll, pinAfter]

/-- A read moves no pin (R136). -/
theorem pinAfterAll_sampleOps (a : PortAddr) (p : PinCode) (here l : Bool) :
    pinAfterAll a p (cycleEntries c (sampleOps b ord here)) l = l := by
  unfold sampleOps
  split <;> rfl

/-- A clock pulse moves no pin but CLK's (R132, R134). -/
theorem pinAfterAll_pulseOps_other (bd : Binding) (d : Ticks) (a : PortAddr) (p : PinCode) (l : Bool)
    (hother : bd ≠ { port := a, pin := p }) : pinAfterAll a p (cycleEntries c (pulseOps bd d)) l = l := by
  rw [ne_eq, binding_eq_iff] at hother
  simp only [pulseOps, cycleEntries, List.map_cons, List.map_nil, pinAfterAll, List.foldl_cons, List.foldl_nil,
    pinAfter, if_neg hother]

theorem accPlain_append (a : PortAddr) (p : PinCode) (ops ops' : List MicroEntry) : ∀ (l : Bool) (acc : Byte),
    accPlain a p (ops ++ ops') l acc = accPlain a p ops' (pinAfterAll a p ops l) (accPlain a p ops l acc) := by
  induction ops with
  | nil => exact fun _ _ => rfl
  | cons e ops ih => exact fun _ _ => ih _ _

theorem accPlain_dataOps (a : PortAddr) (p : PinCode) (level l : Bool) (acc : Byte) :
    accPlain a p (cycleEntries c (dataOps b level)) l acc = acc := by
  unfold dataOps
  split
  · cases level <;> rfl
  · rfl

/-- A read accumulates the level of the pin it reads (R154). -/
theorem accPlain_sampleOps (a : PortAddr) (p : PinCode) (here l : Bool) (acc : Byte) (hmiso : b.misoPresent = true) :
    accPlain a p (cycleEntries c (sampleOps b ord here)) l acc = if here then accumulate acc l c ord else acc := by
  cases here <;> simp [sampleOps, hmiso, cycleEntries, accPlain]

/-! ## MISO on MOSI's own pin -/

/-- A bit cycle accumulates the bit it drives, at either sample point: CLK's pulse does not move the pin (R157). -/
theorem accPlain_cycleOps (sp : SamplePoint) (val : Byte) (l : Bool) (acc : Byte) (hmosi : b.mosiPresent = true)
    (hsame : b.bind.miso = b.bind.mosi) (hclk : b.bind.clk ≠ b.bind.mosi) :
    accPlain b.bind.mosi.port b.bind.mosi.pin (cycleEntries c (cycleOps sp b val ord c)) l acc =
      accumulate acc (outBit val ord c) c ord := by
  have hmiso : b.misoPresent = true := by rwa [SeqState.misoPresent, hsame]
  simp only [cycleOps, cycleEntries_append, accPlain_append, pinAfterAll_append, accPlain_dataOps,
    pinAfterAll_dataOps b c _ _ hmosi, accPlain_sampleOps b ord c _ _ _ _ _ hmiso, pinAfterAll_sampleOps,
    pinAfterAll_pulseOps_other c _ _ _ _ _ hclk]
  cases sp <;> rfl

/-- The list accumulates the eight bits it drives, by induction on the cycles. -/
theorem accPlain_cycles (sp : SamplePoint) (val : Byte) (hmosi : b.mosiPresent = true)
    (hsame : b.bind.miso = b.bind.mosi) (hclk : b.bind.clk ≠ b.bind.mosi) (cs : List (Fin 8)) :
    ∀ (l : Bool) (acc : Byte),
      accPlain b.bind.mosi.port b.bind.mosi.pin (cs.flatMap fun c => cycleEntries c (cycleOps sp b val ord c)) l acc =
        cs.foldl (fun acc c => accumulate acc (outBit val ord c) c ord) acc := by
  induction cs with
  | nil => exact fun _ _ => rfl
  | cons c cs ih =>
    intro l acc
    rw [List.flatMap_cons, accPlain_append, accPlain_cycleOps b ord c sp val l acc hmosi hsame hclk, ih,
      List.foldl_cons]

end

/-- A TRANSFER reads MISO's pin and no other (R155). -/
theorem reads_transferOps (sp : SamplePoint) (b : SeqState) (val : Byte) (ord : BitOrder) (e : MicroEntry)
    (he : e ∈ transferOps sp b val ord) (a : PortAddr) (p : PinCode) (o : BitOrder) (hop : e.op = .readBit a p o) :
    b.bind.miso.port = a ∧ b.bind.miso.pin = p := by
  simp only [transferOps, List.mem_flatMap, List.mem_map] at he
  obtain ⟨c, -, op, hmem, rfl⟩ := he
  obtain rfl : op = .readBit a p o := hop
  have sample (here : Bool) (hmem : .readBit a p o ∈ sampleOps b ord here) :
      b.bind.miso.port = a ∧ b.bind.miso.pin = p := by
    unfold sampleOps at hmem
    split at hmem
    · cases List.mem_singleton.mp hmem
      exact ⟨rfl, rfl⟩
    · exact nomatch hmem
  simp only [cycleOps, List.mem_append] at hmem
  obtain ((hmem | hmem) | hmem) | hmem := hmem
  · simp only [dataOps, writePin] at hmem
    split at hmem
    · split at hmem <;> exact nomatch List.mem_singleton.mp hmem
    · exact nomatch hmem
  · exact sample _ hmem
  · simp [pulseOps] at hmem
  · exact sample _ hmem

/-- Plain registers answer every transaction (R57). -/
theorem answered_of_plain {s : State} (h : s.answers = []) : s.answered = true := by
  simp [State.answered, h]

/-- A present MOSI's pin code is a pin index (R26, R76). -/
theorem mosi_pin_le (s : State) (h : s.Inv) (hpin : s.blk.bind.mosi.pin ≠ 15#4) : s.blk.bind.mosi.pin.toNat ≤ 7 := by
  obtain ⟨hmosi, -⟩ := data_pins s h
  exact of_decide_eq_true (hmosi ((mosiPresent_iff _).mpr hpin))

/-- A ready block's CLK pin code is a pin index (R26). -/
theorem clk_pin_le (s : State) (h : s.Inv) (hready : s.blk.initstat = 0b111#3) : s.blk.bind.clk.pin.toNat ≤ 7 := by
  obtain ⟨-, ⟨-, hpin⟩, -⟩ := ready_pins s h hready
  exact of_decide_eq_true hpin

/-- Settles O21: the one pin read is MOSI's, so the bits accumulated are the bits driven (`accPlain_cycles`). -/
theorem samePinLoopsBack : Obligations.SamePinLoopsBack := by
  intro s val ord h hidle ⟨hag, hplain⟩ hready hpin hsame hclk
  obtain ⟨hport, -⟩ := ready_pins s h hready
  obtain ⟨t, evs, hexec, hsteps, hend⟩ := transfer_ends s _ val ord (.inl rfl) h hag (answered_of_plain hplain) hready
    fun hinvalid => hport (hsame ▸ hinvalid.2)
  refine ⟨_, t, hexec, hsteps, hend.busy, hend.code, ?_⟩
  have hread : ∀ e ∈ transferList s val ord, ∀ a p o, e.op = .readBit a p o →
      a = s.blk.bind.mosi.port ∧ p = s.blk.bind.mosi.pin := by
    intro e he a p o hop
    obtain ⟨rfl, rfl⟩ := reads_transferOps _ _ val ord e he a p o hop
    rw [hsame]
    exact ⟨rfl, rfl⟩
  rw [hend.resultOfPin hplain _ _ (mosi_pin_le s h hpin) hread, transferList, transferOps_eq_flatMap,
    accPlain_cycles s.blk ord _ val ((mosiPresent_iff _).mpr hpin) hsame hclk]
  exact accumulateAll_outBit val ord

/-! ## After the command -/

/-- Settles O22: the levels of `pinAfterAll_transferOps` at CLK's pin, at MOSI's, and at any other. -/
theorem pinLevelsAfterTransfer : Obligations.PinLevelsAfterTransfer := by
  intro s i val ord hi h hidle ⟨hag, hplain⟩ hready hmiso
  obtain ⟨t, evs, hexec, hsteps, hend⟩ := transfer_ends s i val ord hi h hag (answered_of_plain hplain) hready hmiso
  have hlevel (a : PortAddr) (p : PinCode) (hp : p.toNat ≤ 7) :
      t.pinAt a p = if s.blk.bind.clk = { port := a, pin := p } then false
        else if s.blk.mosiPresent ∧ s.blk.bind.mosi = { port := a, pin := p } then outBit val ord 7
        else s.pinAt a p := by
    rw [hend.pins hplain a p hp, transferList, pinAfterAll_transferOps]
  refine ⟨_, t, hexec, hsteps, hend.busy, ?clk, fun hpin hne => ?mosi, fun a p hp hclk hmosi => ?other⟩
  case clk => rw [hlevel _ _ (clk_pin_le s h hready), if_pos rfl]
  case mosi =>
    rw [hlevel _ _ (mosi_pin_le s h hpin), if_neg hne.symm, if_pos ⟨(mosiPresent_iff _).mpr hpin, rfl⟩]
    rfl
  case other => rw [hlevel a p hp, if_neg hclk, if_neg fun hboth => hmosi hboth.2]

/-! ## In the high phase -/

section
variable (sp : SamplePoint) (b : SeqState) (val : Byte) (ord : BitOrder)

/-- What bit cycle c performs before its clock fall (R155). -/
def beforeFall (c : Fin 8) : List MicroOp :=
  dataOps b (outBit val ord c) ++ sampleOps b ord (sp == .beforePulse) ++
    [.setBit b.bind.clk.port b.bind.clk.pin, .delay b.delay]

/-- What bit cycle c performs after its clock fall (R155). -/
def afterFall : List MicroOp := .delay b.delay :: sampleOps b ord (sp == .afterPulse)

theorem cycleOps_eq_around_fall (c : Fin 8) :
    cycleOps sp b val ord c =
      beforeFall sp b val ord c ++ .clearBit b.bind.clk.port b.bind.clk.pin :: afterFall sp b ord := by
  simp [cycleOps, beforeFall, afterFall, pulseOps]

theorem clearBit_not_mem_sampleOps (here : Bool) (a : PortAddr) (p : PinCode) :
    .clearBit a p ∉ sampleOps b ord here := by
  unfold sampleOps
  split <;> simp

/-- With MOSI on a pin of its own, a cycle lowers CLK once: not before its clock fall, and not after it (R161). -/
theorem fall_not_mem_beforeFall (c : Fin 8) (hne : b.bind.mosi ≠ b.bind.clk) :
    .clearBit b.bind.clk.port b.bind.clk.pin ∉ beforeFall sp b val ord c := by
  have hdata : .clearBit b.bind.clk.port b.bind.clk.pin ∉ dataOps b (outBit val ord c) := by
    intro hmem
    unfold dataOps writePin at hmem
    split at hmem
    · split at hmem
      · exact nomatch List.mem_singleton.mp hmem
      · obtain ⟨hport, hpin⟩ := MicroOp.clearBit.inj (List.mem_singleton.mp hmem)
        exact hne ((binding_eq_iff _ _ _).mpr ⟨hport.symm, hpin.symm⟩)
    · exact nomatch hmem
  simp [beforeFall, hdata, clearBit_not_mem_sampleOps]

theorem fall_not_mem_afterFall (a : PortAddr) (p : PinCode) : .clearBit a p ∉ afterFall sp b ord := by
  simp [afterFall, clearBit_not_mem_sampleOps]

/-- A clock fall in a bit cycle's entries comes after the entries of `beforeFall` (R161). -/
theorem split_cycle_at_fall {c c' : Fin 8} {pre rest : List MicroEntry} (hne : b.bind.mosi ≠ b.bind.clk)
    (h : cycleEntries c' (cycleOps sp b val ord c') =
      pre ++ { cycle := c, op := .clearBit b.bind.clk.port b.bind.clk.pin } :: rest) :
    c' = c ∧ pre = cycleEntries c (beforeFall sp b val ord c) := by
  have hnot {ops : List MicroOp} (hops : .clearBit b.bind.clk.port b.bind.clk.pin ∉ ops) :
      { cycle := c, op := .clearBit b.bind.clk.port b.bind.clk.pin } ∉ cycleEntries c' ops := by
    intro hmem
    obtain ⟨op, hop, heq⟩ := List.mem_map.mp hmem
    obtain ⟨-, rfl⟩ := MicroEntry.mk.inj heq
    exact hops hop
  rw [cycleOps_eq_around_fall, cycleEntries_append, cycleEntries_cons,
    List.append_cons_inj_of_notMem (hnot (fall_not_mem_beforeFall sp b val ord c' hne))
      (hnot (fall_not_mem_afterFall sp b ord _ _))] at h
  obtain ⟨rfl, hfall, -⟩ := h
  obtain ⟨rfl, -⟩ := MicroEntry.mk.inj hfall
  exact ⟨rfl, rfl⟩

/-- What is performed before the clock fall of cycle c ends with the entries of `beforeFall`, by induction on the
cycles. -/
theorem beforeFall_suffix_of_split {c : Fin 8} {rest : List MicroEntry} (hne : b.bind.mosi ≠ b.bind.clk)
    (cs : List (Fin 8)) : ∀ pre : List MicroEntry,
      (cs.flatMap fun c => cycleEntries c (cycleOps sp b val ord c)) =
        pre ++ { cycle := c, op := .clearBit b.bind.clk.port b.bind.clk.pin } :: rest →
      ∃ earlier, pre = earlier ++ cycleEntries c (beforeFall sp b val ord c) := by
  induction cs with
  | nil => exact fun pre h => absurd h.symm (by simp)
  | cons c' cs ih =>
    intro pre h
    rw [List.flatMap_cons, List.append_eq_append_iff] at h
    obtain ⟨more, rfl, hmore⟩ | ⟨more, hcycle, hmore⟩ := h
    · obtain ⟨earlier, rfl⟩ := ih more hmore
      exact ⟨_ ++ earlier, (List.append_assoc ..).symm⟩
    · cases more with
      | nil =>
        obtain ⟨earlier, hnil⟩ := ih [] hmore.symm
        obtain ⟨-, hempty⟩ := List.append_eq_nil_iff.mp hnil.symm
        simp [cycleEntries, beforeFall] at hempty
      | cons e more =>
        obtain ⟨rfl, -⟩ := List.cons.inj hmore
        obtain ⟨-, rfl⟩ := split_cycle_at_fall sp b val ord hne hcycle
        exact ⟨[], rfl⟩

/-- Before its clock fall a cycle has raised CLK (R161). -/
theorem pinAfterAll_beforeFall_clk (c : Fin 8) (l : Bool) :
    pinAfterAll b.bind.clk.port b.bind.clk.pin (cycleEntries c (beforeFall sp b val ord c)) l = true := by
  rw [beforeFall, cycleEntries_append, pinAfterAll_append]
  simp [cycleEntries, pinAfterAll, pinAfter]

/-- Before its clock fall a cycle has driven a present MOSI to its output bit (R161). -/
theorem pinAfterAll_beforeFall_mosi (c : Fin 8) (l : Bool) (hmosi : b.mosiPresent = true)
    (hne : b.bind.mosi ≠ b.bind.clk) :
    pinAfterAll b.bind.mosi.port b.bind.mosi.pin (cycleEntries c (beforeFall sp b val ord c)) l =
      outBit val ord c := by
  have hclk : ¬ (b.bind.clk.port = b.bind.mosi.port ∧ b.bind.clk.pin = b.bind.mosi.pin) :=
    (binding_eq_iff _ _ _).not.mp hne.symm
  simp only [beforeFall, cycleEntries_append, pinAfterAll_append, pinAfterAll_dataOps b c _ _ hmosi,
    pinAfterAll_sampleOps]
  simp only [cycleEntries, List.map_cons, List.map_nil, pinAfterAll, List.foldl_cons, List.foldl_nil, pinAfter,
    if_neg hclk]

end

/-- Settles O23: whatever came before, the part of the cycle before its clock fall leaves CLK at 1 and MOSI at the
output bit (`beforeFall_suffix_of_split`). -/
theorem highPhaseShowsTheBit : Obligations.HighPhaseShowsTheBit := by
  intro s i val ord hi h hidle ⟨hag, hplain⟩ hready hmiso hne
  refine ⟨_, exec_transfer_valid s i val ord hi hready hmiso, fun k u c rest hk hsteps hops => ?_⟩
  have hlegal := legal_transferList s val ord h hready hmiso
  obtain ⟨pre, hsplit, hpins⟩ := steps_inside k (transferStart s i val ord) u hag rfl hplain h.portsWf hlegal
    ((Nat.le_of_lt_succ hk).trans (Nat.le_add_left ..)) hsteps
  rw [hops] at hsplit
  obtain ⟨earlier, rfl⟩ := beforeFall_suffix_of_split _ s.blk val ord hne bitCycles pre hsplit
  refine ⟨?clk, fun hpin => ?mosi⟩
  case clk =>
    rw [hpins _ _ (clk_pin_le s h hready), pinAfterAll_append]
    exact pinAfterAll_beforeFall_clk _ s.blk val ord c _
  case mosi =>
    rw [hpins _ _ (mosi_pin_le s h hpin), pinAfterAll_append]
    exact pinAfterAll_beforeFall_mosi _ s.blk val ord c _ ((mosiPresent_iff _).mpr hpin) hne

end Sys2Proof.Machine
end

section
/-! PROOFS. TRIGGER and WRITECS from acceptance to completion (rules R180..R185): both act on SEL's pin alone, and what
they show on the port bus under plain registers. -/

namespace Sys2Proof.Machine

/-! ## The events of a list, under plain registers -/

/-- The event a micro-operation shows when the port registers m answer it themselves (R54, R55, R139). -/
def plainEvent (m : Memory) : MicroOp → BusEvent
  | .setBit a i => .rmw a 0x00#8 (pinMask i) (m.read a.toNat ||| pinMask i)
  | .clearBit a i => .rmw a (pinMask i) 0x00#8 (m.read a.toNat &&& ~~~pinMask i)
  | .readBit a _ _ => .read a (m.read a.toNat)
  | .delay n => .hold n

/-- The events of a list that starts on the port registers m (R246). -/
def plainEvents : List MicroEntry → Memory → List BusEvent
  | [], _ => []
  | e :: rest, m => plainEvent m e.op :: plainEvents rest (portsAfter (plainEvent m e.op) m)

/-- Plain registers stay plain: there is no answer to use up (R57). -/
theorem answersAfter_nil (e : MicroEntry) : answersAfter e [] = [] := by
  unfold answersAfter
  split <;> rfl

/-- Under plain registers the event of a micro-operation is fixed by the registers it works on (R57). -/
theorem Performed.event_eq_plainEvent {e : MicroEntry} {rest : List MicroEntry} {s t : State} {ev : BusEvent}
    (hp : Performed e rest s t ev) (hans : s.answers = []) : ev = plainEvent s.ports e.op := by
  have hshows := hp.shows
  have hbus := hp.fromBus
  obtain ⟨c, op⟩ := e
  cases ev with
  | rmw a clr set left =>
    obtain ⟨old, hold, rfl⟩ := hbus
    obtain rfl := Option.some.inj ((busValue_plain s a hans).symm.trans hold)
    cases op with
    | setBit b i => obtain ⟨rfl, rfl, rfl⟩ := hshows; rw [rmwValue_set]; rfl
    | clearBit b i => obtain ⟨rfl, rfl, rfl⟩ := hshows; rw [rmwValue_clear]; rfl
    | _ => exact hshows.elim
  | read a v =>
    obtain rfl := Option.some.inj ((busValue_plain s a hans).symm.trans hbus)
    cases op with
    | readBit b i ord => obtain rfl := hshows; rfl
    | _ => exact hshows.elim
  | hold n =>
    cases op with
    | delay k => obtain rfl := hshows; rfl
    | _ => exact hshows.elim

/-- Under plain registers the events of a whole list are fixed by the registers it starts on, by induction on
the list. -/
theorem Runs.events_eq_plainEvents {ops : List MicroEntry} {s t : State} {evs : List BusEvent} (h : Runs ops s t evs)
    (hans : s.answers = []) : evs = plainEvents ops s.ports := by
  induction h with
  | nil s => rfl
  | cons e rest s u t ev evs hhold hp hruns ih =>
    have hans' : u.endHold.answers = [] := by
      rw [State.endHold, withBlk_answers, hp.answers, hans, answersAfter_nil]
    rw [ih hans', State.endHold, withBlk_ports, hp.ports, hp.event_eq_plainEvent hans, plainEvents]

/-! ## Micro-operations on SEL's pin -/

/-- A micro-operation that TRIGGER or WRITECS may perform: a write of SEL's pin or a hold of DELAY ticks (R180). -/
def MicroOp.OnSelect (b : SeqState) (op : MicroOp) : Prop :=
  op = .setBit b.bind.sel.port b.bind.sel.pin ∨ op = .clearBit b.bind.sel.port b.bind.sel.pin ∨ op = .delay b.delay

/-- A ready block's SEL binding is a pin of a real port, so its micro-operations are legal (R26, R138). -/
theorem MicroOp.OnSelect.legal {s : State} {op : MicroOp} (h : op.OnSelect s.blk) (hinv : s.Inv)
    (hready : s.blk.initstat = 0b111#3) : op.legal s.blk.delay = true := by
  obtain ⟨-, -, hport, hpin⟩ := ready_pins s hinv hready
  obtain rfl | rfl | rfl := h <;> simp [MicroOp.legal, hport, hpin]

/-- A micro-operation on SEL's pin writes no port but SEL's (R180). -/
theorem MicroOp.OnSelect.port_eq {b : SeqState} {op : MicroOp} {a : PortAddr} {p : PinCode} (h : op.OnSelect b)
    (hop : op = .setBit a p ∨ op = .clearBit a p) : a = b.bind.sel.port := by
  obtain rfl | rfl | rfl := h <;> obtain heq | heq := hop <;> cases heq <;> rfl

/-- A micro-operation on SEL's pin moves no other pin (R180). -/
theorem MicroOp.OnSelect.pinAfter_other {b : SeqState} {op : MicroOp} {a : PortAddr} {p : PinCode}
    (h : op.OnSelect b) (hother : b.bind.sel ≠ { port := a, pin := p }) (l : Bool) : pinAfter a p op l = l := by
  rw [ne_eq, binding_eq_iff] at hother
  obtain rfl | rfl | rfl := h
  · exact if_neg hother
  · exact if_neg hother
  · rfl

/-- A list of micro-operations on SEL's pin moves no other pin, by induction on the list. -/
theorem pinAfterAll_onSelect_other {b : SeqState} {a : PortAddr} {p : PinCode}
    (hother : b.bind.sel ≠ { port := a, pin := p }) (l : Bool) (ops : List MicroOp)
    (h : ∀ op ∈ ops, op.OnSelect b) : pinAfterAll a p (selectEntries ops) l = l := by
  induction ops with
  | nil => rfl
  | cons op rest ih =>
    obtain ⟨hop, hrest⟩ := List.forall_mem_cons.mp h
    change pinAfterAll a p (selectEntries rest) (pinAfter a p op l) = l
    rw [hop.pinAfter_other hother, ih hrest]

/-! ## The two commands -/

/-- The two commands on SEL and the micro-operations each loads into block b (R181, R184). -/
inductive SelectCommand (b : SeqState) : Instr → List MicroOp → Prop where
  | trigger : SelectCommand b .trigger (pulseOps b.bind.sel b.delay)
  | writecs (lvl : Bool) : SelectCommand b (.writecs lvl) [writePin b.bind.sel lvl]

/-- Both commands act on SEL's pin alone (R180). -/
theorem SelectCommand.onSelect {b : SeqState} {i : Instr} {ops : List MicroOp} (h : SelectCommand b i ops) :
    ∀ op ∈ ops, op.OnSelect b := by
  cases h with
  | trigger => simp [pulseOps, MicroOp.OnSelect]
  | writecs lvl => cases lvl <;> simp [writePin, MicroOp.OnSelect]

/-- Neither command returns a byte (R180). -/
theorem SelectCommand.cmdReturnsAcc_eq_false {b : SeqState} {i : Instr} {ops : List MicroOp}
    (h : SelectCommand b i ops) : cmdReturnsAcc (encode i) = false := by
  cases h with
  | trigger => rfl
  | writecs lvl => cases lvl <;> rfl

/-- The state in which an accepted command on SEL starts on its list (R206). -/
def selectStart (s : State) (i : Instr) (ops : List MicroOp) : State :=
  s.withBlk ((s.blk.accept (encode i)).load (selectEntries ops))

/-- A command on SEL of a ready block passes its check (R202). -/
theorem SelectCommand.exec_ready {s : State} {i : Instr} {ops : List MicroOp} (h : SelectCommand s.blk i ops)
    (hready : s.blk.initstat = 0b111#3) : exec i s = .next (selectStart s i ops) := by
  have haccept : acceptSelect (encode i) ops s = selectStart s i ops :=
    acceptSelect_ready s _ ops ((ready_iff_initstat _).mpr hready)
  cases h with
  | trigger => exact congrArg _ haccept
  | writecs lvl => exact congrArg _ haccept

/-- The state t in which a command on SEL accepted in state s ends, `evs` being the events of its list (R205). -/
structure SelectEnd (s : State) (ops : List MicroOp) (t : State) (evs : List BusEvent) : Prop where
  trace    : t.trace = s.trace ++ evs
  shows    : List.Forall₂ MicroOp.shows ops evs
  busy     : t.blk.busy = false
  code     : t.blk.code = 0#4
  opsDone  : t.blk.ops = []
  holdLeft : t.blk.holdLeft = 0
  result   : t.blk.result = s.blk.result
  settings : SameSettings s.blk t.blk
  offered  : t.offered = s.offered
  cfg      : t.cfg = s.cfg
  /-- Every port register but SEL's (R180). -/
  ports    : ∀ b : Nat, b ≠ s.blk.bind.sel.port.toNat → t.ports.read b = s.ports.read b
  /-- The events, under plain registers (R57). -/
  events   : s.answers = [] → evs = plainEvents (selectEntries ops) s.ports
  /-- Each pin's level, under plain registers (R132, R134). -/
  pins     : s.answers = [] → ∀ (a : PortAddr) (p : PinCode), p.toNat ≤ 7 →
    t.pinAt a p = pinAfterAll a p (selectEntries ops) (s.pinAt a p)
  /-- Every pin but SEL's, under plain registers (R180). -/
  pinsKept : s.answers = [] → ∀ (a : PortAddr) (p : PinCode), p.toNat ≤ 7 →
    s.blk.bind.sel ≠ { port := a, pin := p } → t.pinAt a p = s.pinAt a p

/-- Performing the list of a command on SEL and completing leads to its end (R205). -/
theorem Runs.selectEnd {s u : State} {i : Instr} {ops : List MicroOp} {evs : List BusEvent}
    (hi : SelectCommand s.blk i ops) (hwf : s.ports.wf = true)
    (hlegal : ∀ e ∈ selectEntries ops, e.op.legal s.blk.delay = true)
    (h : Runs (selectEntries ops) (selectStart s i ops) u evs) : SelectEnd s ops (u.withBlk u.blk.finish) evs := by
  obtain ⟨htrace, hshows⟩ := h.shown
  obtain ⟨hblk, hcfg, hoffered, -⟩ := h.leaves rfl
  have hpins (hans : s.answers = []) (a : PortAddr) (p : PinCode) (hp : p.toNat ≤ 7) :
      u.pinAt a p = pinAfterAll a p (selectEntries ops) (s.pinAt a p) := by
    obtain ⟨-, -, hpins, -⟩ := h.plain s.blk.delay hlegal hwf hans
    exact hpins a p hp
  exact {
    trace := htrace
    shows := by rwa [selectEntries, List.forall₂_map_left_iff] at hshows
    busy := finish_busy _
    code := finish_code _
    opsDone := (finish_ops _).trans (by rw [hblk])
    holdLeft := (finish_holdLeft _).trans (by rw [hblk]; rfl)
    result := by
      refine (finish_result _).trans ?_
      rw [hblk]
      exact if_neg (Bool.eq_false_iff.mp hi.cmdReturnsAcc_eq_false)
    settings := by
      refine ⟨(finish_delay _).trans ?_, (finish_initstat _).trans ?_, (finish_bind _).trans ?_⟩ <;> rw [hblk] <;> rfl
    offered := hoffered
    cfg := hcfg
    ports := fun b hb => h.ports_other b fun e he a p hop => by
      obtain ⟨op, hmem, rfl⟩ := List.mem_map.mp he
      rwa [(hi.onSelect op hmem).port_eq hop]
    events := h.events_eq_plainEvents
    pins := hpins
    pinsKept := fun hans a p hp hother =>
      (hpins hans a p hp).trans (pinAfterAll_onSelect_other hother _ ops hi.onSelect) }

/-- Whatever the bus answers, a command on SEL of a ready block comes to its end in the steps of its list (R204,
R205). -/
theorem select_ends (s : State) (i : Instr) (ops : List MicroOp) (hi : SelectCommand s.blk i ops) (h : s.Inv)
    (hag : s.agenda = []) (hans : s.answered = true) (hready : s.blk.initstat = 0b111#3) :
    ∃ t evs, exec i s = .next (selectStart s i ops) ∧
      Steps (listSteps (selectEntries ops)) (selectStart s i ops) t ∧ SelectEnd s ops t evs := by
  have hlegal := legal_selectEntries s.blk.delay ops fun op hop => (hi.onSelect op hop).legal h hready
  obtain ⟨u, evs, hruns, hsteps⟩ := runs_to_completion (selectStart s i ops) hag rfl rfl hans hlegal
  exact ⟨_, evs, hi.exec_ready hready, hsteps, hruns.selectEnd hi h.portsWf hlegal⟩

/-- A ready block's SEL pin code is a pin index (R26). -/
theorem sel_pin_le (s : State) (h : s.Inv) (hready : s.blk.initstat = 0b111#3) : s.blk.bind.sel.pin.toNat ≤ 7 := by
  obtain ⟨-, -, -, hpin⟩ := ready_pins s h hready
  exact of_decide_eq_true hpin

/-! ## TRIGGER -/

/-- TRIGGER's steps: two transactions, two holds with their ticks, and completion (R181). -/
theorem listSteps_pulseOps (bd : Binding) (d : Ticks) :
    listSteps (selectEntries (pulseOps bd d)) = 2 * d.toNat + 5 := by
  simp only [listSteps, selectEntries, pulseOps, List.map_cons, List.map_nil, List.sum_cons, List.sum_nil,
    MicroOp.steps]
  omega

/-- Under plain registers a pulse sets the pin's bit of what the register held and clears it again (R182). -/
theorem plainEvents_pulseOps (m : Memory) (bd : Binding) (d : Ticks) (hwf : m.wf = true) :
    plainEvents (selectEntries (pulseOps bd d)) m =
      [.rmw bd.port 0x00#8 (pinMask bd.pin) (m.read bd.port.toNat ||| pinMask bd.pin), .hold d,
        .rmw bd.port (pinMask bd.pin) 0x00#8 ((m.read bd.port.toNat ||| pinMask bd.pin) &&& ~~~pinMask bd.pin),
        .hold d] := by
  simp only [selectEntries, pulseOps, List.map_cons, List.map_nil, plainEvents, plainEvent, portsAfter,
    read_write_same m 1 _ _ hwf]

/-- A pulse leaves its pin at 0 (R182). -/
theorem pinAfterAll_pulseOps_same (bd : Binding) (d : Ticks) (l : Bool) :
    pinAfterAll bd.port bd.pin (selectEntries (pulseOps bd d)) l = false := by
  simp [selectEntries, pulseOps, pinAfterAll, pinAfter]

/-- Settles O27: TRIGGER's list is one pulse of SEL's pin, performed to its end (`select_ends`). -/
theorem triggerPulsesSelect : Obligations.TriggerPulsesSelect := by
  intro s h hidle hag hans hready
  obtain ⟨t, evs, hexec, hsteps, hend⟩ := select_ends s _ _ .trigger h hag hans hready
  rw [listSteps_pulseOps] at hsteps
  refine ⟨_, t, evs, hexec, hsteps, hend.trace, hend.shows, fun hplain => ⟨?events, ?low, hend.pinsKept hplain⟩,
    hend.busy, hend.code, hend.opsDone, hend.holdLeft, hend.result, hend.settings, hend.offered, hend.cfg, hend.ports⟩
  case events => exact (hend.events hplain).trans (plainEvents_pulseOps s.ports _ _ h.portsWf)
  case low => rw [hend.pins hplain _ _ (sel_pin_le s h hready), pinAfterAll_pulseOps_same]

/-! ## WRITECS -/

/-- WRITECS's steps: one transaction and completion (R184). -/
theorem listSteps_writePin (bd : Binding) (lvl : Bool) : listSteps (selectEntries [writePin bd lvl]) = 2 := by
  cases lvl <;> rfl

/-- A write of a pin leaves it at the level written (R137). -/
theorem pinAfterAll_writePin_same (bd : Binding) (lvl l : Bool) :
    pinAfterAll bd.port bd.pin (selectEntries [writePin bd lvl]) l = lvl := by
  cases lvl <;> simp [selectEntries, writePin, pinAfterAll, pinAfter]

/-- Settles O28: WRITECS's list is one write of SEL's pin, performed to its end (`select_ends`). -/
theorem writecsDrivesSelect : Obligations.WritecsDrivesSelect := by
  intro s lvl h hidle hag hans hready
  obtain ⟨t, evs, hexec, hsteps, hend⟩ := select_ends s _ _ (.writecs lvl) h hag hans hready
  rw [listSteps_writePin] at hsteps
  obtain ⟨ev, _, hshows, hnil, rfl⟩ := List.forall₂_cons_left_iff.mp hend.shows
  obtain rfl := List.forall₂_nil_left_iff.mp hnil
  refine ⟨_, t, ev, hexec, hsteps, hend.trace, hshows, fun hplain => ⟨?level, hend.pinsKept hplain⟩,
    hend.busy, hend.code, hend.opsDone, hend.holdLeft, hend.result, hend.settings, hend.offered, hend.cfg, hend.ports⟩
  rw [hend.pins hplain _ _ (sel_pin_le s h hready), pinAfterAll_writePin_same]

end Sys2Proof.Machine
end

section
/-! PROOFS. Acceptance and the errors of a binding that is not there (rules R202..R206, R215, R233): the rejected
commands, the word an idle block takes, and the words a running block leaves. -/

namespace Sys2Proof.Machine

/-! ## INVALID_BINDING -/

/-- A TRANSFER or CLEAR that fails either check is the raise of INVALID_BINDING (R152, R202). -/
theorem exec_transfer_invalid (s : State) (i : Instr) (val : Byte) (ord : BitOrder) (hi : IsTransfer i val ord)
    (hinvalid : s.blk.ready = false ∨ s.blk.misoInvalid = true) :
    exec i s = .next (s.withBlk ((s.blk.accept (encode i)).raise .invalidBinding)) := by
  rw [exec_transfer s i val ord hi, acceptTransfer_invalid s _ val ord hinvalid]

/-- A command on SEL of a block that is not ready is the raise of INVALID_BINDING (R202). -/
theorem SelectCommand.exec_notReady {s : State} {i : Instr} {ops : List MicroOp} (h : SelectCommand s.blk i ops)
    (hready : s.blk.ready = false) :
    exec i s = .next (s.withBlk ((s.blk.accept (encode i)).raise .invalidBinding)) := by
  have haccept := acceptSelect_notReady s (encode i) ops hready
  cases h with
  | trigger => exact congrArg _ haccept
  | writecs lvl => exact congrArg _ haccept

theorem ready_eq_false_iff (b : SeqState) : b.ready = false ↔ b.initstat ≠ 0b111#3 := by
  rw [← Bool.not_eq_true, ready_iff_initstat]

theorem misoInvalid_iff (b : SeqState) :
    b.misoInvalid = true ↔ b.bind.miso.pin ≠ 15#4 ∧ b.bind.miso.port = 0#12 := by
  rw [← Bool.not_eq_false, misoInvalid_eq_false_iff, not_not]

/-- Settles O18: whichever command and cause it is, the acceptance is the raise of INVALID_BINDING. -/
theorem invalidBindingChangesOnlyStatus : Obligations.InvalidBindingChangesOnlyStatus := by
  intro s i hinvalid
  have hraise : exec i s = .next (s.withBlk ((s.blk.accept (encode i)).raise .invalidBinding)) := by
    obtain ⟨hcommand, hnot⟩ | ⟨⟨val, ord, hi⟩, hmiso⟩ := hinvalid
    · have hready := (ready_eq_false_iff s.blk).mpr hnot
      obtain ⟨val, ord, hi⟩ | rfl | ⟨lvl, rfl⟩ := hcommand
      · exact exec_transfer_invalid s i val ord hi (.inl hready)
      · exact SelectCommand.trigger.exec_notReady hready
      · exact (SelectCommand.writecs lvl).exec_notReady hready
    · exact exec_transfer_invalid s i val ord hi (.inr ((misoInvalid_iff s.blk).mpr hmiso))
  exact ⟨_, hraise, sameOutside_withBlk s _, ⟨rfl, rfl, rfl⟩, rfl, rfl, rfl, rfl, rfl, rfl, rfl⟩

/-! ## The word an idle block takes -/

theorem acceptWord_ok {w : Word} {i : Instr} (s : State) (h : decodeWord w = .ok i) : acceptWord w s = exec i s := by
  rw [acceptWord, h]

/-- The turn withFetchWord puts first is the block's, which accepts the word placed (R206, R233). -/
theorem step_withFetchWord (s : State) (nbits x : Nat) :
    step (s.withFetchWord nbits x) = acceptWord (tableWord nbits x)
      { s with blk := { s.blk with busy := false, ops := [], holdLeft := 0 } } :=
  step_turn (s.withFetchWord nbits x) .sequencer s.agenda rfl

/-- Settles O6: either step is the acceptance of a word, which runs the command the word decodes to. -/
theorem stepRunsTheDecodedCommand : Obligations.StepRunsTheDecodedCommand := by
  refine ⟨fun s w rest i hag hidle hoff hdec => ?offered, fun s nbits x i hdec => ?placed⟩
  case offered => rw [step_accepts s w rest hag hidle hoff, acceptWord_ok _ hdec]
  case placed => rw [step_withFetchWord, acceptWord_ok _ hdec]

/-! ## The words a block leaves -/

/-- A step of a running block takes no offered word (R206). -/
theorem BlockStep.offered_of_busy {s t : State} (h : BlockStep s t) (hbusy : s.blk.busy = true) :
    t.offered = s.offered := by
  cases h with
  | performs e rest _ ev _ hhold hops hperf => exact hperf.offered
  | rejectsWord w words err hidle hoff hdec => exact absurd (hbusy.symm.trans hidle) Bool.noConfusion
  | accepts w words i b hidle hoff hdec hacc => exact absurd (hbusy.symm.trans hidle) Bool.noConfusion
  | _ => rfl

/-- An idle block with no word to take waits for one (R215). -/
theorem step_idle (s : State) (hag : s.agenda = []) (hidle : s.blk.busy = false) (hoff : s.offered = []) :
    step s = .next s := by
  simp [step_no_agenda s hag, sequencerStep, hidle, hoff]

/-- Settles O8: of the steps of the block, only an acceptance takes a word, and acceptance needs the block idle. -/
theorem busyBlockTakesNoWord : Obligations.BusyBlockTakesNoWord := by
  refine ⟨fun s t hag hbusy hstep => ?busy, step_idle⟩
  rw [step_running s hag hbusy] at hstep
  exact (blockStep_of_runningStep s t hbusy hstep).offered_of_busy hbusy

end Sys2Proof.Machine
end

section
/-! PROOFS. Reset, a bus that never answers, and the bound on a command's steps (rules R204, R230..R232, R247). -/

namespace Sys2Proof.Machine

/-! ## Every command ends -/

/-- A TRANSFER has at most 48 micro-operations, 16 of them holds (R155, R247). -/
theorem listSteps_transferOps_le (sp : SamplePoint) (b : SeqState) (val : Byte) (ord : BitOrder) :
    listSteps (transferOps sp b val ord) ≤ 32 + 16 * (1 + b.delay.toNat) + 1 := by
  rw [listSteps_transferOps, transferOps_length]
  split <;> split <;> omega

/-- An acceptance that leaves the block running leaves no hold in progress, and a list within R247's bound. -/
theorem Accepts.listSteps_le_of_busy {sp : SamplePoint} {b b' : SeqState} {i : Instr} (h : Accepts sp b i b')
    (hbusy : b'.busy = true) : b'.holdLeft = 0 ∧ listSteps b'.ops ≤ 32 + 16 * (1 + b.delay.toNat) + 1 := by
  cases h with
  | transfers i val ord hi hready hmiso => exact ⟨rfl, listSteps_transferOps_le sp _ val ord⟩
  | triggers hready =>
    refine ⟨rfl, ?_⟩
    rw [load_ops, listSteps_pulseOps]
    omega
  | drivesSelect lvl hready =>
    refine ⟨rfl, ?_⟩
    rw [load_ops, listSteps_writePin]
    omega
  | _ => exact nomatch hbusy

/-- Settles O38: an acceptance that leaves the block running keeps the invariant (`Accepts.inv`), so its list is legal
and is performed to completion (`runs_to_completion`) within the bound (`Accepts.listSteps_le_of_busy`). -/
theorem everyCommandEnds : Obligations.EveryCommandEnds := by
  intro s i h hidle hag hans
  obtain ⟨b, hexec, hacc⟩ := exec_accepts i s
  refine ⟨_, hexec, ?_⟩
  cases hbusy : b.busy with
  | false => exact .inl hbusy
  | true =>
    obtain ⟨hhold, hbound⟩ := hacc.listSteps_le_of_busy hbusy
    have hinv : (s.withBlk b).Inv := hacc.inv h hidle
    obtain ⟨u, evs, hruns, hsteps⟩ := runs_to_completion (s.withBlk b) hag hbusy hhold hans hinv.opsLegal
    obtain ⟨-, -, hoffered, -⟩ := hruns.leaves rfl
    exact .inr ⟨_, _, hbound, hsteps, finish_busy _, finish_code _, hoffered⟩

/-! ## A bus that never answers -/

theorem busValue_silent (s : State) (a : PortAddr) (more : List BusAnswer) (h : s.answers = .silent :: more) :
    s.busValue a = none := by
  rw [State.busValue, h]

/-- On a silent bus no transaction is performed: what is performed is a DELAY (R247). -/
theorem Performed.delay_of_silent {e : MicroEntry} {rest : List MicroEntry} {s t : State} {ev : BusEvent}
    {more : List BusAnswer} (hp : Performed e rest s t ev) (hsilent : s.answers = .silent :: more) :
    ∃ n, e.op = .delay n := by
  have hshows := hp.shows
  have hbus := hp.fromBus
  cases ev with
  | rmw a clr set left =>
    obtain ⟨old, hold, -⟩ := hbus
    exact nomatch (busValue_silent s a more hsilent).symm.trans hold
  | read a v => exact nomatch (busValue_silent s a more hsilent).symm.trans hbus
  | hold n =>
    cases hop : e.op with
    | delay m => exact ⟨m, rfl⟩
    | _ => rw [hop] at hshows; exact hshows.elim

/-- A state that steps to itself is left by no number of steps, by induction on the steps. -/
theorem steps_self (s : State) (h : step s = .next s) (n : Nat) : Steps n s s := by
  induction n with
  | zero => exact (steps_zero s s).mpr rfl
  | succ n ih => exact (steps_succ n s s).mpr ⟨s, h, ih⟩

/-- Settles O33: a step tries the transaction at the head of the list, which does not stop the machine and is not
performed (`Performed.delay_of_silent`), so the state steps to itself. -/
theorem silentBusLeavesTheBlockStuck : Obligations.SilentBusLeavesTheBlockStuck := by
  intro s e rest more h hag hsilent hbusy hhold hops hnodelay
  have hlegal := h.opsLegal e (by rw [hops]; exact List.mem_cons_self)
  obtain ⟨t, ht⟩ := performMicro_next_of_legal e rest s s.blk.delay hlegal
  have hstep : step s = .next t := (step_micro s e rest hag hbusy hhold hops).trans ht
  obtain rfl | ⟨ev, hperf⟩ := performMicro_cases e rest s t ht
  · exact steps_self t hstep
  · obtain ⟨n, hn⟩ := hperf.delay_of_silent hsilent
    exact absurd hn (hnodelay n)

/-! ## Reset -/

theorem step_hostReset (s : State) (rest : List Turn) (h : s.agenda = .hostReset :: rest) :
    step s = .next (resetBlock { s with agenda := rest }) :=
  step_turn s _ rest h

/-- After a reset turn the host reads what it reads in the machine right after reset, whatever was running (R230). -/
theorem hostRead_resetBlock (n : BitVec 4) (s : State) : hostRead n (resetBlock s) = hostRead n State.reset := rfl

/-- Settles O39: the turn replaces the block alone, by the one whose registers `State.reset` shows. -/
theorem resetClearsTheBlockOnly : Obligations.ResetClearsTheBlockOnly := by
  intro s rest h
  refine ⟨_, step_hostReset s rest h, ?_⟩
  simp only [hostRead_resetBlock]
  exact ⟨by decide, by decide, by decide, by decide, by decide, by decide, by decide, by decide, rfl, rfl,
    sameOutside_withBlk _ _⟩

end Sys2Proof.Machine
end
